-- ==== Sys2Proof/Word.lean ====
section
/-! DEFINITION. The bit-vector types of the hardware's data (00_scope.md R6, R9; 30_encoding.md R75). -/

namespace Sys2Proof

/-- A Byte: an element of GF(2^8), bit j the coefficient of x^j (00_scope.md R6, R9). -/
abbrev Byte := BitVec 8

/-- A Word: four bytes, byte 0 most significant (00_scope.md R6; 20_memory.md R51). -/
abbrev Word := BitVec 32

/-- A Block: sixteen bytes, byte 0 most significant (00_scope.md R6; 20_memory.md R50). -/
abbrev Block := BitVec 128

/-- The number of a round key, 0 to 10 (00_scope.md R6; 10_state.md R23, R26). -/
abbrev RoundIndex := Fin 11

/-- The Round Key Schedule: exactly eleven Blocks (00_scope.md R6; 10_state.md R26). -/
abbrev Schedule := Vector Block 11

/-- The port `rk_all` of the key expander (30_encoding.md R75). -/
abbrev RkAll := BitVec 1408

end Sys2Proof
end

