-- ==== Sys2Proof/Machine/Operands.lean ====
section
/-! DEFINITION. The views of one value: bus bits, Block bytes, Words and Square cells (20_memory.md R50, R51,
R67; 00_scope.md R10; 30_encoding.md R74, R75). All are wiring: no logic, no cycle. -/

namespace Sys2Proof.Machine

/-- Byte i of a Block: bits [127-8i : 120-8i] (20_memory.md R50). -/
def blockByte (b : Block) (i : Fin 16) : Byte := b.extractLsb' (120 - 8 * i.val) 8

/-- The Block whose byte i is `f i` (20_memory.md R50). -/
def blockOf (f : Fin 16 → Byte) : Block :=
  f 0 ++ f 1 ++ f 2 ++ f 3 ++ f 4 ++ f 5 ++ f 6 ++ f 7 ++ f 8 ++ f 9 ++ f 10 ++ f 11 ++ f 12 ++ f 13 ++ f 14 ++ f 15

/-- Byte k of a Word, byte 0 most significant (20_memory.md R51). -/
def wordByte (w : Word) (k : Fin 4) : Byte := w.extractLsb' (24 - 8 * k.val) 8

/-- The Word of four bytes, byte 0 first (20_memory.md R51). -/
def wordOf (b0 b1 b2 b3 : Byte) : Word := b0 ++ b1 ++ b2 ++ b3

/-- Word Wj of a Block: bits [127-32j : 96-32j] (20_memory.md R51). -/
def blockWord (b : Block) (j : Fin 4) : Word := b.extractLsb' (96 - 32 * j.val) 32

/-- The Block of four Words {W0, W1, W2, W3} (20_memory.md R51; 00_scope.md R8). -/
def blockOfWords (w0 w1 w2 w3 : Word) : Block := w0 ++ w1 ++ w2 ++ w3

/-- The Block byte that is Square cell s[r][c]: 4c + r (00_scope.md R10). -/
def cellIndex (r c : Fin 4) : Fin 16 := ⟨4 * c.val + r.val, by omega⟩

/-- The row of Block byte i: i mod 4 (00_scope.md R10). -/
def rowOf (i : Fin 16) : Fin 4 := ⟨i.val % 4, by omega⟩

/-- The column of Block byte i: i div 4 (00_scope.md R10). -/
def colOf (i : Fin 16) : Fin 4 := ⟨i.val / 4, by omega⟩

/-- Square cell s[r][c] of a Block (00_scope.md R10). -/
def cell (b : Block) (r c : Fin 4) : Byte := blockByte b (cellIndex r c)

/-- The Block whose Square cell s[r][c] is `f r c` (00_scope.md R10; 20_memory.md R67). -/
def blockOfCells (f : Fin 4 → Fin 4 → Byte) : Block := blockOf fun i => f (rowOf i) (colOf i)

/-- The port `rk_all`: round key i at bits [1407-128i : 1280-128i] (30_encoding.md R75). -/
def packSchedule (v : Schedule) : RkAll :=
  v.get 0 ++ v.get 1 ++ v.get 2 ++ v.get 3 ++ v.get 4 ++ v.get 5 ++ v.get 6 ++ v.get 7 ++ v.get 8 ++ v.get 9 ++ v.get 10

/-- Round key i on the port `rk_all` (30_encoding.md R75). -/
def rkAllEntry (v : RkAll) (i : RoundIndex) : Block := v.extractLsb' (1280 - 128 * i.val) 128

/-- A round number as the 4-bit `round` input (30_encoding.md R74, R75). -/
def roundBits (r : RoundIndex) : BitVec 4 := BitVec.ofNat 4 r.val

/-- The round before r. Used where r is at least 1. -/
def prevRound (r : RoundIndex) : RoundIndex := ⟨r.val - 1, by omega⟩

end Sys2Proof.Machine
end

