-- ==== Sys2Proof/Machine/KeyUnit.lean ====
section
/-! DEFINITION. The key schedule as functions: `aes128_key_step`, `aes128_key_expand` and what is inside them
(42_key_schedule.md R120 to R125). -/

namespace Sys2Proof.Machine

/-- The Round Constant Table: rounds 1 to 10; 0 and 11 to 15 read 0x00 (42_key_schedule.md R120). Log entry 6. -/
def rcon (r : BitVec 4) : Byte :=
  [0x00, 0x01, 0x02, 0x04, 0x08, 0x10, 0x20, 0x40, 0x80, 0x1B, 0x36].getD r.toNat 0x00

/-- `RotWord(w) = (w[1], w[2], w[3], w[0])` (42_key_schedule.md R121). -/
def rotWord (w : Word) : Word := wordOf (wordByte w 1) (wordByte w 2) (wordByte w 3) (wordByte w 0)

/-- Every byte through the forward S-box (42_key_schedule.md R122). -/
def subWord (w : Word) : Word :=
  wordOf (sboxFwd (wordByte w 0)) (sboxFwd (wordByte w 1)) (sboxFwd (wordByte w 2)) (sboxFwd (wordByte w 3))

/-- `g(w, r)`: the round constant goes into byte 0 only (42_key_schedule.md R123). -/
def gFunc (w : Word) (r : BitVec 4) : Word :=
  let t := subWord (rotWord w)
  wordOf (wordByte t 0 ^^^ rcon r) (wordByte t 1) (wordByte t 2) (wordByte t 3)

/-- `aes128_key_step`: round key r from round key r-1 (42_key_schedule.md R124). -/
def keyStep (rkPrev : Block) (round : BitVec 4) : Block :=
  let k0 := blockWord rkPrev 0 ^^^ gFunc (blockWord rkPrev 3) round
  let k1 := blockWord rkPrev 1 ^^^ k0
  let k2 := blockWord rkPrev 2 ^^^ k1
  let k3 := blockWord rkPrev 3 ^^^ k2
  blockOfWords k0 k1 k2 k3

/-- Round key r of a key: the key itself, then one key step a round (42_key_schedule.md R125). -/
def roundKey (key : Block) : Nat → Block
  | 0 => key
  | r + 1 => keyStep (roundKey key r) (BitVec.ofNat 4 (r + 1))

/-- `aes128_key_expand`: the eleven round keys (42_key_schedule.md R125). -/
def keyExpand (key : Block) : Schedule := Vector.ofFn fun i => roundKey key i.val

end Sys2Proof.Machine
end

