-- ==== Sys2Proof/Machine/FieldUnit.lean ====
section
/-! DEFINITION. The modules `gf28_add` and `gf28_mult` as functions (40_gf28.md R100, R101, R102). -/

namespace Sys2Proof.Machine

/-- `gf28_add`: bitwise exclusive-or (40_gf28.md R100). -/
def gf28Add (a b : Byte) : Byte := a ^^^ b

/-- Subtraction, which coincides with addition (40_gf28.md R101). -/
def gf28Sub (a b : Byte) : Byte := a ^^^ b

/-- The reducing polynomial x^8+x^4+x^3+x+1 (40_gf28.md R102). -/
def reducingPolynomial : BitVec 15 := 0x11B

/-- The first loop of 40_gf28.md R102: the product of the two polynomials, one bit of `b` at a time. -/
def polyProduct (a b : Byte) : BitVec 15 :=
  [0, 1, 2, 3, 4, 5, 6, 7].foldl
    (fun acc i => if b.getLsbD i then acc ^^^ (a.setWidth 15 <<< i) else acc) 0

/-- The second loop of 40_gf28.md R102: clear bits 14 down to 8 with the shifted reducing polynomial. -/
def polyReduce (acc : BitVec 15) : BitVec 15 :=
  [14, 13, 12, 11, 10, 9, 8].foldl
    (fun acc p => if acc.getLsbD p then acc ^^^ (reducingPolynomial <<< (p - 8)) else acc) acc

/-- `gf28_mult`: the field product (40_gf28.md R102). -/
def gf28Mult (a b : Byte) : Byte := (polyReduce (polyProduct a b)).extractLsb' 0 8

end Sys2Proof.Machine
end

