-- ==== Sys2Proof/Machine/RoundUnit.lean ====
section
/-! DEFINITION. The round transformations and the modules `aes_enc_round` and `aes_dec_round` as functions
(43_round.md R140 to R150). -/

namespace Sys2Proof.Machine

/-- Each byte with the round key's byte, by field addition (43_round.md R140). -/
def addRoundKey (b k : Block) : Block := blockOf fun i => gf28Add (blockByte b i) (blockByte k i)

/-- The forward S-box on each of the sixteen bytes (43_round.md R141). -/
def subBytes (b : Block) : Block := blockOf fun i => sboxFwd (blockByte b i)

/-- The inverse S-box on each of the sixteen bytes (43_round.md R142). -/
def invSubBytes (b : Block) : Block := blockOf fun i => sboxInv (blockByte b i)

/-- s'[r][c] = s[r][(c + r) mod 4] (43_round.md R143). -/
def shiftRows (b : Block) : Block := blockOfCells fun r c => cell b r (c + r)

/-- s'[r][c] = s[r][(c - r) mod 4] (43_round.md R144). -/
def invShiftRows (b : Block) : Block := blockOfCells fun r c => cell b r (c - r)

/-- The MixColumns matrix, rows first (43_round.md R145). -/
def mixMatrix : Vector (Vector Byte 4) 4 :=
  #v[#v[0x02, 0x03, 0x01, 0x01],
     #v[0x01, 0x02, 0x03, 0x01],
     #v[0x01, 0x01, 0x02, 0x03],
     #v[0x03, 0x01, 0x01, 0x02]]

/-- The InvMixColumns matrix, rows first (43_round.md R146). -/
def invMixMatrix : Vector (Vector Byte 4) 4 :=
  #v[#v[0x0E, 0x0B, 0x0D, 0x09],
     #v[0x09, 0x0E, 0x0B, 0x0D],
     #v[0x0D, 0x09, 0x0E, 0x0B],
     #v[0x0B, 0x0D, 0x09, 0x0E]]

/-- Row r of a matrix times column c of a Square: XOR over k of `gf28_mult(m[r][k], s[k][c])`
(43_round.md R145, R146). -/
def rowTimesColumn (m : Vector (Vector Byte 4) 4) (b : Block) (r c : Fin 4) : Byte :=
  gf28Add (gf28Add (gf28Add
    (gf28Mult ((m.get r).get 0) (cell b 0 c)) (gf28Mult ((m.get r).get 1) (cell b 1 c)))
    (gf28Mult ((m.get r).get 2) (cell b 2 c))) (gf28Mult ((m.get r).get 3) (cell b 3 c))

/-- Each column times the matrix (43_round.md R145). -/
def mixColumns (b : Block) : Block := blockOfCells fun r c => rowTimesColumn mixMatrix b r c

/-- Each column times the inverse matrix (43_round.md R146). -/
def invMixColumns (b : Block) : Block := blockOfCells fun r c => rowTimesColumn invMixMatrix b r c

/-- `aes_enc_round`: `last = 1` omits MixColumns (43_round.md R147, R148; 30_encoding.md R76). -/
def aesEncRound (stateIn rk : Block) (last : Bool) : Block :=
  let s := shiftRows (subBytes stateIn)
  addRoundKey (if last then s else mixColumns s) rk

/-- `aes_dec_round`: `first = 1` omits InvMixColumns (43_round.md R149, R150; 30_encoding.md R76). -/
def aesDecRound (stateIn rk : Block) (first : Bool) : Block :=
  let s := addRoundKey stateIn rk
  invSubBytes (invShiftRows (if first then s else invMixColumns s))

end Sys2Proof.Machine
end

