-- ==== Sys2Proof/Machine/CipherUnit.lean ====
section
/-! DEFINITION. The modules `aes128_encrypt` and `aes128_decrypt` as functions (44_cipher.md R170, R171). -/

namespace Sys2Proof.Machine

/-- `aes128_encrypt` (44_cipher.md R170): AddRoundKey with round key 0, rounds 1 to 9, then round 10
without MixColumns. -/
def aes128Encrypt (blockIn keyIn : Block) : Block :=
  let rk := keyExpand keyIn
  let s := addRoundKey blockIn (rk.get 0)
  let s := [1, 2, 3, 4, 5, 6, 7, 8, 9].foldl (fun s r => aesEncRound s (rk.get r) false) s
  aesEncRound s (rk.get 10) true

/-- `aes128_decrypt` (44_cipher.md R171): inverse round 10 without InvMixColumns, inverse rounds 9 down to 1,
then AddRoundKey with round key 0. -/
def aes128Decrypt (blockIn keyIn : Block) : Block :=
  let rk := keyExpand keyIn
  let s := aesDecRound blockIn (rk.get 10) true
  let s := [9, 8, 7, 6, 5, 4, 3, 2, 1].foldl (fun s r => aesDecRound s (rk.get r) false) s
  addRoundKey s (rk.get 0)

end Sys2Proof.Machine
end

