-- ==== Sys2Proof/Config.lean ====
section
/-! DEFINITION. What the spec fixes for the implementation (00_scope.md R7) and the free values: what the
spec says a model gives "any value" (93_implementation_defined.md U1, U3, U4, U9). A free value has no body,
so nothing can be proved of it; it is applied to the number of state changes so far, so that a value read again
with no change of state in between is the same one (20_memory.md R57), and each change has values of its own. -/

namespace Sys2Proof.Config

/-- Edges from an accepted start to `done` (00_scope.md R7; 44_cipher.md R189). Log entry 18. -/
def latency : Nat := 21

/-- FREE VALUE: what `state_reg` holds after a reset edge, at that number of state changes (10_state.md R34;
70_reset_and_hazards.md R220; U1, U9). Log entry 2. Safe. -/
opaque freeStateReg : Nat → Block

/-- FREE VALUE: what `RK[i]` holds after a reset edge, at that number of state changes (10_state.md R34;
70_reset_and_hazards.md R220; U1, U9). Log entry 2. Safe. -/
opaque freeRoundKey : Nat → RoundIndex → Block

/-- FREE VALUE: what a read of `rk_out` at `rk_idx` yields while `rk_valid` is 0
(70_reset_and_hazards.md R229; U4). Log entry 3. Safe. -/
opaque freeRkOut : Nat → BitVec 4 → Block

/-- FREE VALUE: what a read of `block_out` yields while `done` is 0 (70_reset_and_hazards.md R228; U3).
Log entry 4. Safe. -/
opaque freeBlockOut : Nat → Block

end Sys2Proof.Config
end

