-- ==== Sys2Proof/Syntax.lean ====
section
/-! DEFINITION. The operations of the hardware (30_encoding.md R80, one constructor per row of
spec/opcode_table.json, in its order) and the frame a host access is written in.
An operation's arguments are the values the host drives on the input ports for it (30_encoding.md R71, R75). -/

namespace Sys2Proof

/-- The two commands, as the 1-bit `op` input and `op_reg` encode them: 0 ENCRYPT, 1 DECRYPT
(10_state.md R24; 30_encoding.md R71). -/
inductive Op where
  | encrypt
  | decrypt
  deriving DecidableEq, Repr

/-- One operation of the hardware with its operands (30_encoding.md R80). The commands keep the don't-care
inputs of their control word (R72), so that no bit of it is lost. Log entry 23. -/
inductive Instr where
  | reset (start : Bool) (op : Op) (rkIdx : BitVec 4)
  | encrypt (rkIdx : BitVec 4) (keyIn blockIn : Block)
  | decrypt (rkIdx : BitVec 4) (keyIn blockIn : Block)
  | nop (op : Op) (rkIdx : BitVec 4)
  | rkRead (rkIdx : BitVec 4)
  | gf28Add (a b : Byte)
  | gf28Sub (a b : Byte)
  | gf28Mult (a b : Byte)
  | sboxFwd (x : Byte)
  | sboxInv (x : Byte)
  | rcon (r : BitVec 4)
  | rotWord (w : Word)
  | subWord (w : Word)
  | gFunc (w : Word) (r : BitVec 4)
  | keyStep (rkPrev : Block) (round : BitVec 4)
  | keyExpand (key : Block)
  | addRoundKey (state rk : Block)
  | subBytes (state : Block)
  | invSubBytes (state : Block)
  | shiftRows (state : Block)
  | invShiftRows (state : Block)
  | mixColumns (state : Block)
  | invMixColumns (state : Block)
  | encRound (stateIn rk : Block)
  | encRoundFinal (stateIn rk : Block)
  | decRound (stateIn rk : Block)
  | decRoundFirst (stateIn rk : Block)
  | aes128Encrypt (blockIn keyIn : Block)
  | aes128Decrypt (blockIn keyIn : Block)
  deriving DecidableEq, Repr

/-- One host access as bits: what the host drives and where. The spec gives the control word (R72) and the
ports (R71, R75) and selects a module by using it (R80); DESIGN CHOICE (log entry 10): bit 7 of `head` is 0
for an edge of the core, whose control word is then `head[6:0]`, and 1 for an access without an edge, whose
`head[6:0]` is the number of the operation's row; `sel` holds a 4-bit index or a 1-bit select;
`opA` and `opB` hold the data operands, a Byte or a Word in the low bits. -/
structure Frame where
  head : BitVec 8
  sel  : BitVec 8
  opA  : Block
  opB  : Block
  deriving DecidableEq, Repr

/-- Why bits are no host access. All belong to the model's own frame (log entry 10): no encoding of the
hardware is illegal (30_encoding.md R77). -/
inductive DecodeError where
  /-- the byte string is not one frame long -/
  | badLength (bytes : Nat)
  /-- `head[6:0]` is the number of no row without an edge -/
  | unknownUnit (code : BitVec 7)
  /-- a bit of `sel` that the operation has no port for is 1 -/
  | unusedSelect (sel : BitVec 8)
  /-- a bit of an operand that the operation has no port for is 1 -/
  | unusedOperand (operand : Block)
  deriving DecidableEq, Repr

end Sys2Proof
end

