-- ==== Sys2Proof/Machine/State.lean ====
section
/-! DEFINITION. The state of `aes128_core` (10_state.md R21) and the model's own fields around it, as plain
data; the ways a step can stop; the state after a reset edge. -/

namespace Sys2Proof.Machine

/-- The sequencer's position, in place of a program counter (10_state.md R22). -/
inductive Phase where
  | idle
  | expand
  | cipher
  | done
  deriving DecidableEq, Repr

/-- What the host line READ samples (30_encoding.md R79). -/
structure ReadResult where
  blockOut : Block
  busy : Bool
  done : Bool
  rkValid : Bool
  deriving DecidableEq, Repr

/-- What the host does next (30_encoding.md R79): an access with its port values; READ, a sample of the outputs
between edges; WAIT, NOP repeated until `done` is sampled as 1. The MODEL's own: log entries 11, 22. -/
inductive HostItem where
  | access (f : Frame)
  | read
  | wait
  deriving DecidableEq, Repr

/-- What the host last sampled on an output port, with the port's width, or on the four outputs that READ
samples (30_encoding.md R75, R79). The MODEL's own: log entry 12. -/
inductive Sample where
  | nothing
  | byte (y : Byte)
  | word (y : Word)
  | block (y : Block)
  | rkAll (y : RkAll)
  | outputs (r : ReadResult)
  deriving DecidableEq, Repr

/-- The state. The first five fields are the whole state of the hardware (10_state.md R21); `rkIdx` is an
input wire its output `rk_out` depends on; the last three are the MODEL's own. -/
structure State where
  /-- sequencer position, 2 bits (10_state.md R22) -/
  phase : Phase
  /-- key-step index in EXPAND, round index in CIPHER: a number in 0..10 (10_state.md R23, log entry 8) -/
  ctr : RoundIndex
  /-- the command of the current operation (10_state.md R24) -/
  opReg : Op
  /-- the Block being transformed; the result (10_state.md R25) -/
  stateReg : Block
  /-- the round-key file `RK[0..10]` (10_state.md R26) -/
  rk : Schedule
  /-- the value on the input wire `rk_idx` (30_encoding.md R71, R72; log entry 13) -/
  rkIdx : BitVec 4
  /-- MODEL: what the host has still to do, next first (log entry 11) -/
  host : List HostItem
  /-- MODEL: what the host last sampled (log entry 12) -/
  sampled : Sample
  /-- MODEL: how often the state has changed; free values are applied to it (log entry 14) -/
  changes : Nat
  deriving DecidableEq, Repr

/-- Why the machine stops. The hardware itself raises nothing (60_exceptions.md R200). -/
inductive Fault where
  /-- Raised by the EXPAND step (42_key_schedule.md R130) when `ctr` is 0: the rule would read `RK[-1]`, and
  10_state.md R23 gives EXPAND the values 1..10 only. No run from reset gets there (log entry 9). Safe. -/
  | expandIndexZero
  deriving DecidableEq, Repr

/-- Why a step has no meaning. -/
inductive Refusal where
  /-- Raised by an arm of `exec` whose operation has no meaning yet. Safe. -/
  | notModelled (mnemonic : String)
  /-- Raised by `step` when the next frame in the host's queue is no access of the hardware (log entry 10).
  Safe. -/
  | undecodable (error : DecodeError)
  deriving DecidableEq, Repr

/-- The machine right after a reset edge (10_state.md R34): IDLE, `ctr` 0, `op_reg` 0. The spec leaves
`state_reg` and `RK` unspecified: DESIGN CHOICE 0 (log entry 1). The model's own fields: nothing for
the host to do, nothing sampled, `rk_idx` driven 0, no change counted (log entries 11 to 14). -/
def State.reset : State where
  phase := .idle
  ctr := 0
  opReg := .encrypt
  stateReg := 0
  rk := Vector.replicate 11 0
  rkIdx := 0
  host := []
  sampled := .nothing
  changes := 0

end Sys2Proof.Machine
end

