-- ==== Sys2Proof/Machine/Flags.lean ====
section
/-! DEFINITION. The outputs of `aes128_core`, all functions of its state (10_state.md R27, R31;
20_memory.md R54, R55). There are no condition codes (10_state.md R30). -/

namespace Sys2Proof.Machine

/-- The 2-bit encoding of a phase (10_state.md R21). -/
def Phase.code : Phase → BitVec 2
  | .idle => 0b00
  | .expand => 0b01
  | .cipher => 0b10
  | .done => 0b11

/-- `busy = (phase == EXPAND) or (phase == CIPHER)` (10_state.md R27). -/
def busy (s : State) : Bool := s.phase == .expand || s.phase == .cipher

/-- `done = (phase == DONE)` (10_state.md R27). -/
def done (s : State) : Bool := s.phase == .done

/-- `rk_valid = (phase == CIPHER) or (phase == DONE)` (10_state.md R27). -/
def rkValid (s : State) : Bool := s.phase == .cipher || s.phase == .done

/-- `block_out = state_reg`, a wire (20_memory.md R54). -/
def blockOut (s : State) : Block := s.stateReg

/-- The round-key read port at an index: `RK[i]` for 0..10, zero for 11..15 (20_memory.md R55). -/
def rkPort (s : State) (i : BitVec 4) : Block :=
  if h : i.toNat < 11 then s.rk.get ⟨i.toNat, h⟩ else 0

/-- `rk_out`: the read port at the driven `rk_idx` (20_memory.md R55). -/
def rkOut (s : State) : Block := rkPort s s.rkIdx

/-- What a host that samples `rk_out` gets (70_reset_and_hazards.md R229): the wire's value while `rk_valid`
is 1 and at the reserved indices, and any value otherwise (U4, log entry 3). The value depends on the number of state
changes and the index only, so a read repeated with no change of state in between, within a cycle or across
cycles, gives the same (20_memory.md R57). -/
def sampleRkOut (s : State) : Block :=
  if rkValid s || decide (10 < s.rkIdx.toNat) then rkOut s else Config.freeRkOut s.changes s.rkIdx

/-- What a host that samples `block_out` gets (70_reset_and_hazards.md R228): the result while `done` is 1,
and any value otherwise (U3, log entry 4), the same one until the state changes (20_memory.md R57). -/
def sampleBlockOut (s : State) : Block :=
  if done s then blockOut s else Config.freeBlockOut s.changes

/-- READ: sample `block_out`, `busy`, `done` and `rk_valid` between edges, with no effect
(30_encoding.md R79; 20_memory.md R57). -/
def hostRead (s : State) : ReadResult := ⟨sampleBlockOut s, busy s, done s, rkValid s⟩

end Sys2Proof.Machine
end

