-- ==== Sys2Proof/Machine/Ops.lean ====
section
/-! DEFINITION. The shared operations: one rising edge of `clk` (44_cipher.md R180), and the host's sampling
of an output. The hardware takes no exception (60_exceptions.md R200, R204), so there is no exception entry
and no return; it has no memory (20_memory.md R52), so there is no memory operation. -/

namespace Sys2Proof.Machine

/-- The values on the input ports at a rising edge (30_encoding.md R71). -/
structure EdgeInputs where
  rst : Bool
  start : Bool
  op : Op
  keyIn : Block
  blockIn : Block
  rkIdx : BitVec 4
  deriving DecidableEq, Repr

/-- Write round key i (10_state.md R26). -/
def State.setRoundKey (s : State) (i : RoundIndex) (v : Block) : State := { s with rk := s.rk.set i.val v }

/-- The host samples a value on an output port: no state of the hardware changes (20_memory.md R57;
10_state.md R20; log entry 12). -/
def State.sample (s : State) (v : Sample) : State := { s with sampled := v }

/-- The host drives `rk_idx`, which no edge samples (30_encoding.md R72). -/
def State.driveRkIdx (s : State) (i : BitVec 4) : State := { s with rkIdx := i }

/-- An edge that changes the state, during which `rk_idx` has the given value: the model's own fields
(log entries 13, 14). -/
def State.countChange (s : State) (i : BitVec 4) : State := { s with rkIdx := i, changes := s.changes + 1 }

/-- A reset edge changes the state, but for one in IDLE, which repeats what the reset before it left
(70_reset_and_hazards.md R222; 10_state.md R22: IDLE is "no operation since reset"; log entries 2, 14). -/
def State.countReset (s : State) (i : BitVec 4) : State :=
  if s.phase = .idle then s.driveRkIdx i else s.countChange i

/-- What a reset edge writes (70_reset_and_hazards.md R220): IDLE, `ctr` 0, `op_reg` 0. `state_reg` and `RK`
are unspecified after it: free values (10_state.md R34; U1, U9; log entry 2). -/
def State.resetEdge (s : State) : State :=
  { s with
    phase := .idle
    ctr := 0
    opReg := .encrypt
    stateReg := Config.freeStateReg s.changes
    rk := Vector.ofFn (Config.freeRoundKey s.changes) }

/-- What an accepting edge writes (44_cipher.md R181). -/
def State.accept (s : State) (op : Op) (keyIn blockIn : Block) : State :=
  { s.setRoundKey 0 keyIn with
    opReg := op
    stateReg := blockIn
    ctr := 1
    phase := .expand }

/-- The first `ctr` of CIPHER: 0 for ENCRYPT, 10 for DECRYPT (42_key_schedule.md R130). -/
def firstCipherCtr : Op → RoundIndex
  | .encrypt => 0
  | .decrypt => 10

/-- `ctr <- ctr + 1`, where `ctr` is at most 9. -/
def nextRound (r : RoundIndex) (h : r.val < 10) : RoundIndex := ⟨r.val + 1, by omega⟩

/-- One key step (42_key_schedule.md R130). -/
def State.expandStep (s : State) : Host.Outcome State Fault Refusal :=
  if s.ctr = 0 then .fault .expandIndexZero
  else
    let s' := s.setRoundKey s.ctr (keyStep (s.rk.get (prevRound s.ctr)) (roundBits s.ctr))
    if h : s.ctr.val < 10 then .next { s' with ctr := nextRound s.ctr h }
    else .next { s' with phase := .cipher, ctr := firstCipherCtr s.opReg }

/-- The dispatched round key `rk_sel = RK[ctr]` (42_key_schedule.md R131). -/
def rkSel (s : State) : Block := s.rk.get s.ctr

/-- One encryption step (44_cipher.md R184). -/
def State.encryptStep (s : State) : State :=
  if s.ctr = 0 then { s with stateReg := addRoundKey s.stateReg (rkSel s), ctr := 1 }
  else if h : s.ctr.val < 10 then
    { s with stateReg := aesEncRound s.stateReg (rkSel s) false, ctr := nextRound s.ctr h }
  else { s with stateReg := aesEncRound s.stateReg (rkSel s) true, phase := .done }

/-- One decryption step (44_cipher.md R185). -/
def State.decryptStep (s : State) : State :=
  if s.ctr = 10 then { s with stateReg := aesDecRound s.stateReg (rkSel s) true, ctr := 9 }
  else if 1 ≤ s.ctr.val then
    { s with stateReg := aesDecRound s.stateReg (rkSel s) false, ctr := prevRound s.ctr }
  else { s with stateReg := addRoundKey s.stateReg (rkSel s), phase := .done }

/-- One rising edge: the six cases of 44_cipher.md R180 in their priority order. In EXPAND and CIPHER
`start`, `op`, `key_in` and `block_in` are not looked at (R183; 20_memory.md R56). -/
def clockEdge (e : EdgeInputs) (s : State) : Host.Outcome State Fault Refusal :=
  if e.rst then .next (s.countReset e.rkIdx).resetEdge
  else
    match s.phase with
    | .idle =>
      if e.start then .next ((s.countChange e.rkIdx).accept e.op e.keyIn e.blockIn) else .next (s.driveRkIdx e.rkIdx)
    | .done =>
      if e.start then .next ((s.countChange e.rkIdx).accept e.op e.keyIn e.blockIn) else .next (s.driveRkIdx e.rkIdx)
    | .expand => (s.countChange e.rkIdx).expandStep
    | .cipher =>
      match s.opReg with
      | .encrypt => .next (s.countChange e.rkIdx).encryptStep
      | .decrypt => .next (s.countChange e.rkIdx).decryptStep

end Sys2Proof.Machine
end

