-- ==== Sys2Proof/Machine/Cipher.lean ====
section
/-! DEFINITION. The whole-block functions of 44_cipher.md section 1 as host accesses. -/

namespace Sys2Proof.Machine

/-- AES128_ENCRYPT: module `aes128_encrypt` (44_cipher.md R170). -/
def execAes128Encrypt (blockIn keyIn : Block) (s : State) : Host.Outcome State Fault Refusal :=
  .next (s.sample (.block (aes128Encrypt blockIn keyIn)))

/-- AES128_DECRYPT: module `aes128_decrypt` (44_cipher.md R171). -/
def execAes128Decrypt (blockIn keyIn : Block) (s : State) : Host.Outcome State Fault Refusal :=
  .next (s.sample (.block (aes128Decrypt blockIn keyIn)))

end Sys2Proof.Machine
end

