-- ==== Sys2Proof/Machine/Command.lean ====
section
/-! DEFINITION. The control-word commands and the round-key read (30_encoding.md R80): RESET, ENCRYPT,
DECRYPT, NOP, RK_READ. A command is one rising edge with its values on the input ports (R79). -/

namespace Sys2Proof.Machine

/-- RESET (70_reset_and_hazards.md R220): one edge with `rst` = 1; the other inputs have no effect. -/
def execReset (start : Bool) (op : Op) (rkIdx : BitVec 4) (s : State) : Host.Outcome State Fault Refusal :=
  clockEdge ⟨true, start, op, 0, 0, rkIdx⟩ s

/-- ENCRYPT (44_cipher.md R186): one edge with `start` = 1, `op` = 0; accepted when `busy` is 0 (R181), and
otherwise the edge steps as NOP (R183). -/
def execEncrypt (rkIdx : BitVec 4) (keyIn blockIn : Block) (s : State) : Host.Outcome State Fault Refusal :=
  clockEdge ⟨false, true, .encrypt, keyIn, blockIn, rkIdx⟩ s

/-- DECRYPT (44_cipher.md R187): one edge with `start` = 1, `op` = 1; accepted when `busy` is 0 (R181), and
otherwise the edge steps as NOP (R183). -/
def execDecrypt (rkIdx : BitVec 4) (keyIn blockIn : Block) (s : State) : Host.Outcome State Fault Refusal :=
  clockEdge ⟨false, true, .decrypt, keyIn, blockIn, rkIdx⟩ s

/-- NOP (44_cipher.md R188): one edge with `start` = 0; the phase alone decides what it does. -/
def execNop (op : Op) (rkIdx : BitVec 4) (s : State) : Host.Outcome State Fault Refusal :=
  clockEdge ⟨false, false, op, 0, 0, rkIdx⟩ s

/-- RK_READ (20_memory.md R55, R57): drive `rk_idx` and sample `rk_out`, without an edge. -/
def execRkRead (rkIdx : BitVec 4) (s : State) : Host.Outcome State Fault Refusal :=
  let s := s.driveRkIdx rkIdx
  .next (s.sample (.block (sampleRkOut s)))

end Sys2Proof.Machine
end

