-- ==== Sys2Proof/Machine/Gf28.lean ====
section
/-! DEFINITION. The field operations of 40_gf28.md as host accesses: drive the operands, sample `y`. -/

namespace Sys2Proof.Machine

/-- GF28_ADD (40_gf28.md R100). -/
def execGf28Add (a b : Byte) (s : State) : Host.Outcome State Fault Refusal :=
  .next (s.sample (.byte (gf28Add a b)))

/-- GF28_SUB (40_gf28.md R101). -/
def execGf28Sub (a b : Byte) (s : State) : Host.Outcome State Fault Refusal :=
  .next (s.sample (.byte (gf28Sub a b)))

/-- GF28_MULT (40_gf28.md R102). -/
def execGf28Mult (a b : Byte) (s : State) : Host.Outcome State Fault Refusal :=
  .next (s.sample (.byte (gf28Mult a b)))

end Sys2Proof.Machine
end

