-- ==== Sys2Proof/Machine/KeySchedule.lean ====
section
/-! DEFINITION. The key-schedule operations of 42_key_schedule.md section 1 as host accesses. A reserved round
number runs with round constant 0x00 (R120, R124; log entry 6). -/

namespace Sys2Proof.Machine

/-- RCON (42_key_schedule.md R120). -/
def execRcon (r : BitVec 4) (s : State) : Host.Outcome State Fault Refusal :=
  .next (s.sample (.byte (rcon r)))

/-- ROT_WORD (42_key_schedule.md R121). -/
def execRotWord (w : Word) (s : State) : Host.Outcome State Fault Refusal :=
  .next (s.sample (.word (rotWord w)))

/-- SUB_WORD (42_key_schedule.md R122). -/
def execSubWord (w : Word) (s : State) : Host.Outcome State Fault Refusal :=
  .next (s.sample (.word (subWord w)))

/-- G_FUNC (42_key_schedule.md R123). -/
def execGFunc (w : Word) (r : BitVec 4) (s : State) : Host.Outcome State Fault Refusal :=
  .next (s.sample (.word (gFunc w r)))

/-- KEY_STEP (42_key_schedule.md R124). -/
def execKeyStep (rkPrev : Block) (round : BitVec 4) (s : State) : Host.Outcome State Fault Refusal :=
  .next (s.sample (.block (keyStep rkPrev round)))

/-- KEY_EXPAND (42_key_schedule.md R125; 30_encoding.md R75 for the port). -/
def execKeyExpand (key : Block) (s : State) : Host.Outcome State Fault Refusal :=
  .next (s.sample (.rkAll (packSchedule (keyExpand key))))

end Sys2Proof.Machine
end

