-- ==== Sys2Proof/Machine/Round.lean ====
section
/-! DEFINITION. The round transformations and round modules of 43_round.md as host accesses. -/

namespace Sys2Proof.Machine

/-- ADD_ROUND_KEY (43_round.md R140). -/
def execAddRoundKey (state rk : Block) (s : State) : Host.Outcome State Fault Refusal :=
  .next (s.sample (.block (addRoundKey state rk)))

/-- SUB_BYTES (43_round.md R141). -/
def execSubBytes (state : Block) (s : State) : Host.Outcome State Fault Refusal :=
  .next (s.sample (.block (subBytes state)))

/-- INV_SUB_BYTES (43_round.md R142). -/
def execInvSubBytes (state : Block) (s : State) : Host.Outcome State Fault Refusal :=
  .next (s.sample (.block (invSubBytes state)))

/-- SHIFT_ROWS (43_round.md R143). -/
def execShiftRows (state : Block) (s : State) : Host.Outcome State Fault Refusal :=
  .next (s.sample (.block (shiftRows state)))

/-- INV_SHIFT_ROWS (43_round.md R144). -/
def execInvShiftRows (state : Block) (s : State) : Host.Outcome State Fault Refusal :=
  .next (s.sample (.block (invShiftRows state)))

/-- MIX_COLUMNS (43_round.md R145). -/
def execMixColumns (state : Block) (s : State) : Host.Outcome State Fault Refusal :=
  .next (s.sample (.block (mixColumns state)))

/-- INV_MIX_COLUMNS (43_round.md R146). -/
def execInvMixColumns (state : Block) (s : State) : Host.Outcome State Fault Refusal :=
  .next (s.sample (.block (invMixColumns state)))

/-- ENC_ROUND: `aes_enc_round` with `last` = 0 (43_round.md R147). -/
def execEncRound (stateIn rk : Block) (s : State) : Host.Outcome State Fault Refusal :=
  .next (s.sample (.block (aesEncRound stateIn rk false)))

/-- ENC_ROUND_FINAL: `aes_enc_round` with `last` = 1 (43_round.md R148). -/
def execEncRoundFinal (stateIn rk : Block) (s : State) : Host.Outcome State Fault Refusal :=
  .next (s.sample (.block (aesEncRound stateIn rk true)))

/-- DEC_ROUND: `aes_dec_round` with `first` = 0 (43_round.md R149). -/
def execDecRound (stateIn rk : Block) (s : State) : Host.Outcome State Fault Refusal :=
  .next (s.sample (.block (aesDecRound stateIn rk false)))

/-- DEC_ROUND_FIRST: `aes_dec_round` with `first` = 1 (43_round.md R150). -/
def execDecRoundFirst (stateIn rk : Block) (s : State) : Host.Outcome State Fault Refusal :=
  .next (s.sample (.block (aesDecRound stateIn rk true)))

end Sys2Proof.Machine
end

