-- ==== Sys2Proof/Machine/Sbox.lean ====
section
/-! DEFINITION. The substitutions of 41_sbox.md as host accesses: drive `x`, sample `y`. -/

namespace Sys2Proof.Machine

/-- SBOX_FWD (41_sbox.md R110). -/
def execSboxFwd (x : Byte) (s : State) : Host.Outcome State Fault Refusal :=
  .next (s.sample (.byte (sboxFwd x)))

/-- SBOX_INV (41_sbox.md R112). -/
def execSboxInv (x : Byte) (s : State) : Host.Outcome State Fault Refusal :=
  .next (s.sample (.byte (sboxInv x)))

end Sys2Proof.Machine
end

