-- ==== Sys2Proof/Machine/Dispatch.lean ====
section
/-! DEFINITION. Which meaning each operation has (30_encoding.md R80). -/

namespace Sys2Proof.Machine

/-- One operation of the hardware. -/
def exec (i : Instr) (s : State) : Host.Outcome State Fault Refusal :=
  match i with
  | .reset start op rkIdx => Sys2Proof.Machine.execReset start op rkIdx s
  | .encrypt rkIdx keyIn blockIn => Sys2Proof.Machine.execEncrypt rkIdx keyIn blockIn s
  | .decrypt rkIdx keyIn blockIn => Sys2Proof.Machine.execDecrypt rkIdx keyIn blockIn s
  | .nop op rkIdx => Sys2Proof.Machine.execNop op rkIdx s
  | .rkRead rkIdx => Sys2Proof.Machine.execRkRead rkIdx s
  | .gf28Add a b => Sys2Proof.Machine.execGf28Add a b s
  | .gf28Sub a b => Sys2Proof.Machine.execGf28Sub a b s
  | .gf28Mult a b => Sys2Proof.Machine.execGf28Mult a b s
  | .sboxFwd x => Sys2Proof.Machine.execSboxFwd x s
  | .sboxInv x => Sys2Proof.Machine.execSboxInv x s
  | .rcon r => Sys2Proof.Machine.execRcon r s
  | .rotWord w => Sys2Proof.Machine.execRotWord w s
  | .subWord w => Sys2Proof.Machine.execSubWord w s
  | .gFunc w r => Sys2Proof.Machine.execGFunc w r s
  | .keyStep rkPrev round => Sys2Proof.Machine.execKeyStep rkPrev round s
  | .keyExpand key => Sys2Proof.Machine.execKeyExpand key s
  | .addRoundKey state rk => Sys2Proof.Machine.execAddRoundKey state rk s
  | .subBytes state => Sys2Proof.Machine.execSubBytes state s
  | .invSubBytes state => Sys2Proof.Machine.execInvSubBytes state s
  | .shiftRows state => Sys2Proof.Machine.execShiftRows state s
  | .invShiftRows state => Sys2Proof.Machine.execInvShiftRows state s
  | .mixColumns state => Sys2Proof.Machine.execMixColumns state s
  | .invMixColumns state => Sys2Proof.Machine.execInvMixColumns state s
  | .encRound stateIn rk => Sys2Proof.Machine.execEncRound stateIn rk s
  | .encRoundFinal stateIn rk => Sys2Proof.Machine.execEncRoundFinal stateIn rk s
  | .decRound stateIn rk => Sys2Proof.Machine.execDecRound stateIn rk s
  | .decRoundFirst stateIn rk => Sys2Proof.Machine.execDecRoundFirst stateIn rk s
  | .aes128Encrypt blockIn keyIn => Sys2Proof.Machine.execAes128Encrypt blockIn keyIn s
  | .aes128Decrypt blockIn keyIn => Sys2Proof.Machine.execAes128Decrypt blockIn keyIn s

end Sys2Proof.Machine
end

