-- ==== Sys2Proof/WellFormed.lean ====
section
/-! DEFINITION. Which operations use no reserved value of the spec (30_encoding.md R77). A reserved value is
not illegal: it decodes and runs with the effect the spec gives it (log entries 5, 6); it only departs from
the host contract (70_reset_and_hazards.md R230). -/

namespace Sys2Proof

/-- `rk_idx` names a round key: 0 to 10 (20_memory.md R55; 30_encoding.md R77). -/
def rkIdxDefined (i : BitVec 4) : Bool := decide (i.toNat ≤ 10)

/-- The round number has a round constant: 1 to 10 (42_key_schedule.md R120; 30_encoding.md R77). -/
def roundDefined (r : BitVec 4) : Bool := decide (1 ≤ r.toNat) && decide (r.toNat ≤ 10)

/-- The operation uses no reserved value. In a control word `rk_idx` is a don't-care (30_encoding.md R72)
and is not checked. -/
def Instr.wellFormed : Instr → Bool
  | .reset _ _ _ => true
  | .encrypt _ _ _ => true
  | .decrypt _ _ _ => true
  | .nop _ _ => true
  | .rkRead i => rkIdxDefined i
  | .gf28Add _ _ => true
  | .gf28Sub _ _ => true
  | .gf28Mult _ _ => true
  | .sboxFwd _ => true
  | .sboxInv _ => true
  | .rcon r => roundDefined r
  | .rotWord _ => true
  | .subWord _ => true
  | .gFunc _ r => roundDefined r
  | .keyStep _ r => roundDefined r
  | .keyExpand _ => true
  | .addRoundKey _ _ => true
  | .subBytes _ => true
  | .invSubBytes _ => true
  | .shiftRows _ => true
  | .invShiftRows _ => true
  | .mixColumns _ => true
  | .invMixColumns _ => true
  | .encRound _ _ => true
  | .encRoundFinal _ _ => true
  | .decRound _ _ => true
  | .decRoundFirst _ _ => true
  | .aes128Encrypt _ _ => true
  | .aes128Decrypt _ _ => true

end Sys2Proof
end

