-- ==== Sys2Proof/Decode.lean ====
section
/-! DEFINITION. From bits to an operation and back. The control word is the spec's (30_encoding.md R72, R73,
R78); the frame around it is the model's (log entry 10). -/

namespace Sys2Proof

/-! ### Small fields -/

/-- `op` as a bit: 0 ENCRYPT, 1 DECRYPT (30_encoding.md R71). -/
def Op.toBool : Op → Bool
  | .encrypt => false
  | .decrypt => true

/-- The command an `op` bit selects (30_encoding.md R71). -/
def Op.ofBool (b : Bool) : Op := if b then .decrypt else .encrypt

/-! ### The control word -/

/-- 30_encoding.md R73, in its priority order, less the test of `busy`, which is state: a start while busy
decodes to its command and steps as NOP there (44_cipher.md R183). CW[6] = rst, CW[5] = start, CW[4] = op,
CW[3:0] = rk_idx (R72). -/
def decodeControlWord (cw : BitVec 7) (keyIn blockIn : Block) : Instr :=
  let op := Op.ofBool (cw.getLsbD 4)
  let rkIdx : BitVec 4 := cw.extractLsb' 0 4
  if cw.getLsbD 6 then .reset (cw.getLsbD 5) op rkIdx
  else if cw.getLsbD 5 then
    match op with
    | .encrypt => .encrypt rkIdx keyIn blockIn
    | .decrypt => .decrypt rkIdx keyIn blockIn
  else .nop op rkIdx

/-- A control-word row of spec/opcode_table.json: the words whose bits under `mask` equal `value`. -/
structure CwRow where
  mnemonic : String
  value : BitVec 7
  mask  : BitVec 7
  deriving DecidableEq, Repr

/-- The four control-word rows of spec/opcode_table.json (30_encoding.md R80). -/
def cwRows : List CwRow :=
  [⟨"RESET", 0x40, 0x40⟩, ⟨"ENCRYPT", 0x20, 0x70⟩, ⟨"DECRYPT", 0x30, 0x70⟩, ⟨"NOP", 0x00, 0x60⟩]

/-- The word is one of the row's. -/
def CwRow.covers (row : CwRow) (cw : BitVec 7) : Bool := cw &&& row.mask == row.value

/-- The operation's name in spec/opcode_table.json (30_encoding.md R80). -/
def Instr.mnemonic : Instr → String
  | .reset _ _ _ => "RESET"
  | .encrypt _ _ _ => "ENCRYPT"
  | .decrypt _ _ _ => "DECRYPT"
  | .nop _ _ => "NOP"
  | .rkRead _ => "RK_READ"
  | .gf28Add _ _ => "GF28_ADD"
  | .gf28Sub _ _ => "GF28_SUB"
  | .gf28Mult _ _ => "GF28_MULT"
  | .sboxFwd _ => "SBOX_FWD"
  | .sboxInv _ => "SBOX_INV"
  | .rcon _ => "RCON"
  | .rotWord _ => "ROT_WORD"
  | .subWord _ => "SUB_WORD"
  | .gFunc _ _ => "G_FUNC"
  | .keyStep _ _ => "KEY_STEP"
  | .keyExpand _ => "KEY_EXPAND"
  | .addRoundKey _ _ => "ADD_ROUND_KEY"
  | .subBytes _ => "SUB_BYTES"
  | .invSubBytes _ => "INV_SUB_BYTES"
  | .shiftRows _ => "SHIFT_ROWS"
  | .invShiftRows _ => "INV_SHIFT_ROWS"
  | .mixColumns _ => "MIX_COLUMNS"
  | .invMixColumns _ => "INV_MIX_COLUMNS"
  | .encRound _ _ => "ENC_ROUND"
  | .encRoundFinal _ _ => "ENC_ROUND_FINAL"
  | .decRound _ _ => "DEC_ROUND"
  | .decRoundFirst _ _ => "DEC_ROUND_FIRST"
  | .aes128Encrypt _ _ => "AES128_ENCRYPT"
  | .aes128Decrypt _ _ => "AES128_DECRYPT"

/-! ### Operands of an access without an edge -/

/-- The operation has no select input. -/
def noSelect (sel : BitVec 8) : Except DecodeError Unit :=
  if sel = 0 then .ok () else .error (.unusedSelect sel)

/-- A 4-bit index: `rk_idx`, `r` or `round` (30_encoding.md R74). -/
def selectIndex (sel : BitVec 8) : Except DecodeError (BitVec 4) :=
  if sel.extractLsb' 4 4 = 0 then .ok (sel.extractLsb' 0 4) else .error (.unusedSelect sel)

/-- A 1-bit select: `last` or `first`, 1 when the condition holds (30_encoding.md R74, R76). -/
def selectBit (sel : BitVec 8) : Except DecodeError Bool :=
  if sel.extractLsb' 1 7 = 0 then .ok (sel.getLsbD 0) else .error (.unusedSelect sel)

/-- The operation has no such data operand. -/
def noOperand (v : Block) : Except DecodeError Unit :=
  if v = 0 then .ok () else .error (.unusedOperand v)

/-- A Byte operand, in the low eight bits. -/
def byteOperand (v : Block) : Except DecodeError Byte :=
  if v.extractLsb' 8 120 = 0 then .ok (v.extractLsb' 0 8) else .error (.unusedOperand v)

/-- A Word operand, in the low 32 bits. -/
def wordOperand (v : Block) : Except DecodeError Word :=
  if v.extractLsb' 32 96 = 0 then .ok (v.extractLsb' 0 32) else .error (.unusedOperand v)

/-! ### Operand shapes -/

/-- Two Bytes: the ports `a` and `b`. -/
def decodeByteByte (mk : Byte → Byte → Instr) (f : Frame) : Except DecodeError Instr := do
  noSelect f.sel
  let a ← byteOperand f.opA
  let b ← byteOperand f.opB
  return mk a b

/-- One Byte: the port `x`. -/
def decodeByte (mk : Byte → Instr) (f : Frame) : Except DecodeError Instr := do
  noSelect f.sel
  let x ← byteOperand f.opA
  noOperand f.opB
  return mk x

/-- An index alone: `rk_idx` or `r`. -/
def decodeIndex (mk : BitVec 4 → Instr) (f : Frame) : Except DecodeError Instr := do
  let i ← selectIndex f.sel
  noOperand f.opA
  noOperand f.opB
  return mk i

/-- One Word: `w`. -/
def decodeWord (mk : Word → Instr) (f : Frame) : Except DecodeError Instr := do
  noSelect f.sel
  let w ← wordOperand f.opA
  noOperand f.opB
  return mk w

/-- A Word and a round number. -/
def decodeWordIndex (mk : Word → BitVec 4 → Instr) (f : Frame) : Except DecodeError Instr := do
  let r ← selectIndex f.sel
  let w ← wordOperand f.opA
  noOperand f.opB
  return mk w r

/-- A Block and a round number. -/
def decodeBlockIndex (mk : Block → BitVec 4 → Instr) (f : Frame) : Except DecodeError Instr := do
  let r ← selectIndex f.sel
  noOperand f.opB
  return mk f.opA r

/-- One Block. -/
def decodeBlock (mk : Block → Instr) (f : Frame) : Except DecodeError Instr := do
  noSelect f.sel
  noOperand f.opB
  return mk f.opA

/-- Two Blocks. -/
def decodeBlockBlock (mk : Block → Block → Instr) (f : Frame) : Except DecodeError Instr := do
  noSelect f.sel
  return mk f.opA f.opB

/-- Two Blocks and a select that chooses between the two forms of a round module (30_encoding.md R76). -/
def decodeRound (mk0 mk1 : Block → Block → Instr) (f : Frame) : Except DecodeError Instr := do
  let b ← selectBit f.sel
  return if b then mk1 f.opA f.opB else mk0 f.opA f.opB

/-! ### Frames -/

/-- An access without an edge, by the number of its row. A round module has one number; its `last` or
`first` input chooses the row (30_encoding.md R76, R80). -/
def decodeUnit (f : Frame) : Except DecodeError Instr :=
  match (f.head.extractLsb' 0 7).toNat with
  | 4 => decodeIndex .rkRead f
  | 5 => decodeByteByte .gf28Add f
  | 6 => decodeByteByte .gf28Sub f
  | 7 => decodeByteByte .gf28Mult f
  | 8 => decodeByte .sboxFwd f
  | 9 => decodeByte .sboxInv f
  | 10 => decodeIndex .rcon f
  | 11 => decodeWord .rotWord f
  | 12 => decodeWord .subWord f
  | 13 => decodeWordIndex .gFunc f
  | 14 => decodeBlockIndex .keyStep f
  | 15 => decodeBlock .keyExpand f
  | 16 => decodeBlockBlock .addRoundKey f
  | 17 => decodeBlock .subBytes f
  | 18 => decodeBlock .invSubBytes f
  | 19 => decodeBlock .shiftRows f
  | 20 => decodeBlock .invShiftRows f
  | 21 => decodeBlock .mixColumns f
  | 22 => decodeBlock .invMixColumns f
  | 23 => decodeRound .encRound .encRoundFinal f
  | 25 => decodeRound .decRound .decRoundFirst f
  | 27 => decodeBlockBlock .aes128Encrypt f
  | 28 => decodeBlockBlock .aes128Decrypt f
  | _ => .error (.unknownUnit (f.head.extractLsb' 0 7))

/-- The operation a frame stands for. An edge of the core always decodes (30_encoding.md R73, R78): `opA`
is `key_in`, `opB` is `block_in`, and where the command does not sample them they are ignored
(20_memory.md R56). -/
def decode (f : Frame) : Except DecodeError Instr :=
  if f.head.getLsbD 7 then decodeUnit f
  else do
    noSelect f.sel
    return decodeControlWord (f.head.extractLsb' 0 7) f.opA f.opB

/-! ### The encoder -/

/-- The control word {rst, start, op, rk_idx} (30_encoding.md R72). -/
def controlWord (rst start : Bool) (op : Op) (rkIdx : BitVec 4) : BitVec 7 :=
  BitVec.ofBool rst ++ BitVec.ofBool start ++ BitVec.ofBool op.toBool ++ rkIdx

/-- The frame of one edge of the core. -/
def edgeFrame (cw : BitVec 7) (keyIn blockIn : Block) : Frame :=
  ⟨0#1 ++ cw, 0, keyIn, blockIn⟩

/-- The frame of an access without an edge. -/
def unitFrame (code : BitVec 7) (sel : BitVec 8) (opA opB : Block) : Frame :=
  ⟨1#1 ++ code, sel, opA, opB⟩

/-- An index in the low four bits of `sel`. -/
def indexField (i : BitVec 4) : BitVec 8 := 0#4 ++ i

/-- A Byte in the low eight bits of an operand. -/
def byteField (x : Byte) : Block := 0#120 ++ x

/-- A Word in the low 32 bits of an operand. -/
def wordField (w : Word) : Block := 0#96 ++ w

/-- The frame of an operation. Inputs a command ignores are driven 0. -/
def encode : Instr → Frame
  | .reset start op i => edgeFrame (controlWord true start op i) 0 0
  | .encrypt i k b => edgeFrame (controlWord false true .encrypt i) k b
  | .decrypt i k b => edgeFrame (controlWord false true .decrypt i) k b
  | .nop op i => edgeFrame (controlWord false false op i) 0 0
  | .rkRead i => unitFrame 4 (indexField i) 0 0
  | .gf28Add a b => unitFrame 5 0 (byteField a) (byteField b)
  | .gf28Sub a b => unitFrame 6 0 (byteField a) (byteField b)
  | .gf28Mult a b => unitFrame 7 0 (byteField a) (byteField b)
  | .sboxFwd x => unitFrame 8 0 (byteField x) 0
  | .sboxInv x => unitFrame 9 0 (byteField x) 0
  | .rcon r => unitFrame 10 (indexField r) 0 0
  | .rotWord w => unitFrame 11 0 (wordField w) 0
  | .subWord w => unitFrame 12 0 (wordField w) 0
  | .gFunc w r => unitFrame 13 (indexField r) (wordField w) 0
  | .keyStep k r => unitFrame 14 (indexField r) k 0
  | .keyExpand k => unitFrame 15 0 k 0
  | .addRoundKey b k => unitFrame 16 0 b k
  | .subBytes b => unitFrame 17 0 b 0
  | .invSubBytes b => unitFrame 18 0 b 0
  | .shiftRows b => unitFrame 19 0 b 0
  | .invShiftRows b => unitFrame 20 0 b 0
  | .mixColumns b => unitFrame 21 0 b 0
  | .invMixColumns b => unitFrame 22 0 b 0
  | .encRound b k => unitFrame 23 0 b k
  | .encRoundFinal b k => unitFrame 23 1 b k
  | .decRound b k => unitFrame 25 0 b k
  | .decRoundFirst b k => unitFrame 25 1 b k
  | .aes128Encrypt b k => unitFrame 27 0 b k
  | .aes128Decrypt b k => unitFrame 28 0 b k

/-! ### Frames as bytes -/

/-- Sixteen bytes of a Block, byte 0 first (20_memory.md R50). -/
def blockToBytes (b : Block) : List Byte :=
  (List.range 16).map fun i => b.extractLsb' (120 - 8 * i) 8

/-- A Block from its bytes, byte 0 first (20_memory.md R50); a byte that is not there is 0. -/
def blockOfBytes (bs : List Byte) : Block :=
  let b := fun i => bs.getD i 0
  b 0 ++ b 1 ++ b 2 ++ b 3 ++ b 4 ++ b 5 ++ b 6 ++ b 7 ++ b 8 ++ b 9 ++ b 10 ++ b 11 ++ b 12 ++ b 13 ++ b 14 ++ b 15

/-- The 34 bytes of a frame: `head`, `sel`, then the two operands. -/
def Frame.toBytes (f : Frame) : List Byte :=
  f.head :: f.sel :: (blockToBytes f.opA ++ blockToBytes f.opB)

/-- The frame that 34 bytes are. -/
def Frame.ofBytes : List Byte → Except DecodeError Frame
  | head :: sel :: rest =>
    if rest.length = 32 then .ok ⟨head, sel, blockOfBytes (rest.take 16), blockOfBytes (rest.drop 16)⟩
    else .error (.badLength (rest.length + 2))
  | bs => .error (.badLength bs.length)

/-- The operation a byte string stands for: total on any bytes. -/
def decodeBytes (bs : List Byte) : Except DecodeError Instr := do
  decode (← Frame.ofBytes bs)

/-- The bytes of an operation. -/
def encodeBytes (i : Instr) : List Byte := (encode i).toBytes

/-! ### Words numbered as spec/opcode_table.json numbers them -/

/-- Byte `k` of a table word of `nbits` bits; every bit above them is 0. -/
def tableByte (nbits w k : Nat) : Byte := BitVec.ofNat 8 ((w % 2 ^ nbits) >>> (8 * k))

/-- A table word as a frame: its first byte is `head`, the next `sel`, then the operands' bytes. -/
def Frame.ofTableWord (nbits w : Nat) : Frame where
  head := tableByte nbits w 0
  sel := tableByte nbits w 1
  opA := blockOfBytes ((List.range 16).map fun i => tableByte nbits w (2 + i))
  opB := blockOfBytes ((List.range 16).map fun i => tableByte nbits w (18 + i))

/-- What the decoder reads from a table word. The first byte of a control-word row is its control word.
A row of another format has no bits that name its module (30_encoding.md R80): log entry 16. -/
def decodeTableWord (nbits w : Nat) : Option Instr :=
  match decode (Frame.ofTableWord nbits w) with
  | .ok i => some i
  | .error _ => none

end Sys2Proof
end

