-- ==== Sys2Proof/Machine/Fetch.lean ====
section
/-! DEFINITION. The host's queue and the NOP edges the host makes of itself. The hardware fetches no instructions
(10_state.md R29); the host does one thing after another (30_encoding.md R79; log entry 11). -/

namespace Sys2Proof.Machine

/-- The item the host has done leaves the queue. -/
def State.dropItem (s : State) (rest : List HostItem) : State := { s with host := rest }

/-- With nothing to do the host drives `rst` = 0 and `start` = 0 (70_reset_and_hazards.md R223) and
leaves `rk_idx` as it is. `op` is a don't-care then (spec/opcode_table.json, NOP). -/
def idleAccess (s : State) : Instr := .nop .encrypt s.rkIdx

/-- The `NOP` that WAIT repeats (30_encoding.md R79), with `rk_idx` driven 0 (95_test_vectors.md section 3). -/
def waitAccess : Instr := .nop .encrypt 0

end Sys2Proof.Machine
end

