-- ==== Sys2Proof/Machine/HostStep.lean ====
section
/-! DEFINITION. What the machine does for each item of the host's queue (30_encoding.md R79; log entries 11, 22). -/

namespace Sys2Proof.Machine

/-- An access: the operation its frame decodes to is performed on the state without the item. -/
def accessStep (f : Frame) (rest : List HostItem) (s : State) : Host.Outcome State Fault Refusal :=
  match decode f with
  | .ok i => exec i (s.dropItem rest)
  | .error e => .refused (.undecodable e)

/-- READ: `block_out`, `busy`, `done` and `rk_valid` are sampled between edges, and nothing else changes
(30_encoding.md R79; 20_memory.md R57). -/
def readStep (rest : List HostItem) (s : State) : Host.Outcome State Fault Refusal :=
  .next ((s.dropItem rest).sample (.outputs (hostRead s)))

/-- One turn of WAIT: a NOP edge, then `done` is polled, and the item stays until it is sampled as 1
(30_encoding.md R79; 95_test_vectors.md P1, P5; log entry 22). -/
def waitStep (rest : List HostItem) (s : State) : Host.Outcome State Fault Refusal :=
  match exec waitAccess s with
  | .next t => .next (if done t then t.dropItem rest else t)
  | .fault r => .fault r
  | .refused r => .refused r

/-- The host's next item; with none waiting, an idle NOP edge (log entry 11). -/
def hostStep (s : State) : Host.Outcome State Fault Refusal :=
  match s.host with
  | [] => exec (idleAccess s) s
  | .access f :: rest => accessStep f rest s
  | .read :: rest => readStep rest s
  | .wait :: rest => waitStep rest s

end Sys2Proof.Machine
end

