-- ==== Sys2Proof/Machine/Step.lean ====
section
/-! DEFINITION. One step: the host does its next item (30_encoding.md R79; log entry 11). -/

namespace Sys2Proof.Machine

/-- One step of the machine. -/
def step (s : State) : Host.Outcome State Fault Refusal := hostStep s

/-- The table word as the host's very next access (log entries 11, 16). -/
def State.withFetchWord (s : State) (nbits w : Nat) : State :=
  { s with host := .access (Frame.ofTableWord nbits w) :: s.host }

end Sys2Proof.Machine
end

