-- ==== Sys2Proof/Machine/Contract.lean ====
section
/-! DEFINITION. The host contract (70_reset_and_hazards.md R230): where a host program departs from it, and a run
that is marked as refused there (60_exceptions.md R201; 92_eei_decisions.md D14; log entry 25). The hardware records
no misuse, so the machine itself runs on (R201): the mark is the host model's. -/

namespace Sys2Proof

/-- The access is a reset edge. -/
def Instr.isReset : Instr → Bool
  | .reset _ _ _ => true
  | _ => false

end Sys2Proof

namespace Sys2Proof.Machine

/-- The points of the contract (70_reset_and_hazards.md R230), and the stand-alone use of a reserved round number
(93_implementation_defined.md U6). -/
inductive Departure where
  /-- (a) a command while `busy` is 1 -/
  | commandWhileBusy
  /-- (b) a command, or another use of the core (U11), before a reset edge -/
  | useBeforeReset
  /-- (c) `block_out` while `done` is 0 -/
  | blockOutBeforeDone
  /-- (d) `rk_out` while `rk_valid` is 0 or at `rk_idx` 11..15 -/
  | rkOutInvalid
  /-- (e) a register's value from before a reset -/
  | survivesReset
  /-- a round number 0 or 11..15 (U6) -/
  | reservedRound
  deriving DecidableEq, Repr

/-- What the contract needs to know of the run so far: whether a reset edge has happened, and whether `rk_valid` has
been 1 since the last one. -/
structure RunHistory where
  booted : Bool
  keyed : Bool
  deriving DecidableEq, Repr

/-- The run begins at power-on (70_reset_and_hazards.md R221). -/
def RunHistory.powerOn : RunHistory := ⟨false, false⟩

/-- The last edge was a reset edge. -/
def RunHistory.afterReset : RunHistory := ⟨true, false⟩

/-- (a), (b): a command. -/
def commandDepartures (h : RunHistory) (s : State) : List Departure :=
  if !h.booted then [.useBeforeReset] else if busy s then [.commandWhileBusy] else []

/-- `RK[i]` has not been written since the last reset edge: no key step has reached it (42_key_schedule.md R130). -/
def roundKeySurvives (h : RunHistory) (s : State) (i : BitVec 4) : Bool :=
  s.phase == .idle || (s.phase == .expand && !h.keyed && decide (s.ctr.val ≤ i.toNat))

/-- (b), (d), (e): a read of `rk_out`. -/
def rkReadDepartures (h : RunHistory) (i : BitVec 4) (s : State) : List Departure :=
  if !h.booted then [.useBeforeReset]
  else if !rkIdxDefined i then [.rkOutInvalid]
  else if rkValid s then []
  else if roundKeySurvives h s i then [.rkOutInvalid, .survivesReset]
  else [.rkOutInvalid]

/-- (b), (c), (e): a READ. In IDLE `state_reg` has not been written since the last reset edge. -/
def readDepartures (h : RunHistory) (s : State) : List Departure :=
  if !h.booted then [.useBeforeReset]
  else if done s then []
  else if s.phase == .idle then [.blockOutBeforeDone, .survivesReset]
  else [.blockOutBeforeDone]

/-- (b): a WAIT polls `done`, which is unspecified before a reset edge. -/
def waitDepartures (h : RunHistory) : List Departure := if h.booted then [] else [.useBeforeReset]

/-- Where an access departs. A reset and a NOP never do, and a combinational module has no state to misuse. -/
def accessDepartures (h : RunHistory) (i : Instr) (s : State) : List Departure :=
  match i with
  | .encrypt _ _ _ => commandDepartures h s
  | .decrypt _ _ _ => commandDepartures h s
  | .rkRead j => rkReadDepartures h j s
  | i => if i.wellFormed then [] else [.reservedRound]

/-- Where the host's next item departs. A frame that is no access departs nowhere: `step` refuses it. -/
def nextDepartures (h : RunHistory) (s : State) : List Departure :=
  match s.host with
  | [] => []
  | .access f :: _ =>
    match decode f with
    | .ok i => accessDepartures h i s
    | .error _ => []
  | .read :: _ => readDepartures h s
  | .wait :: _ => waitDepartures h

/-- The host's next item is a reset edge. -/
def nextResets (s : State) : Bool :=
  match s.host with
  | .access f :: _ =>
    match decode f with
    | .ok i => i.isReset
    | .error _ => false
  | _ => false

/-- The history after a step from `s` to `t`. -/
def RunHistory.after (h : RunHistory) (s t : State) : RunHistory :=
  if nextResets s then .afterReset else { h with keyed := h.keyed || rkValid t }

/-- What becomes of a run of a host program. -/
inductive Verdict where
  /-- it keeps the contract up to this state -/
  | ran (s : State)
  /-- it departs from the contract here: the run is marked as refused (R230) -/
  | refused (ds : List Departure)
  /-- the machine itself stops -/
  | stopped
  deriving DecidableEq, Repr

/-- A run of at most `n` steps, refused at the first item that departs from the contract
(70_reset_and_hazards.md R230). -/
def hostRun : Nat → RunHistory → State → Verdict
  | 0, _, s => .ran s
  | n + 1, h, s =>
    match nextDepartures h s with
    | [] =>
      match step s with
      | .next t => hostRun n (h.after s t) t
      | .fault _ => .stopped
      | .refused _ => .stopped
    | d :: ds => .refused (d :: ds)

end Sys2Proof.Machine
end

