-- ==== Sys2Proof/Machine/HostNotation.lean ====
section
/-! DEFINITION. The host command notation of 30_encoding.md R79: its lines, what they expand to, and how a
program of them is placed before the machine (log entries 11, 22). -/

namespace Sys2Proof

/-- The rising edges an access takes: one for a control word, none for a read or a combinational module
(30_encoding.md R79, R80; 10_state.md R20). -/
def Instr.edges : Instr → Nat
  | .reset _ _ _ => 1
  | .encrypt _ _ _ => 1
  | .decrypt _ _ _ => 1
  | .nop _ _ => 1
  | _ => 0

end Sys2Proof

namespace Sys2Proof.Machine

/-- A line of a host program (30_encoding.md R79); the last four are its pseudo-instructions. -/
inductive HostLine where
  | reset
  | enc (k b : Block)
  | dec (k b : Block)
  | nop (n : Nat)
  | read
  | rkRead (i : BitVec 4)
  | wait
  | encw (k b : Block)
  | decw (k b : Block)
  | rkDump
  deriving DecidableEq, Repr

/-- The expansions of the pseudo-instructions (30_encoding.md R79). WAIT, which ends when `done` is sampled as 1, has
no line of fixed length: it stays an item of its own, and `waitStep` performs it. -/
def HostLine.expand : HostLine → List HostLine
  | .encw k b => [.enc k b, .wait, .read]
  | .decw k b => [.dec k b, .wait, .read]
  | .rkDump => (List.range 11).map fun i => .rkRead (BitVec.ofNat 4 i)
  | line => [line]

/-- An operation as an item of the queue. -/
def HostItem.ofInstr (i : Instr) : HostItem := .access (encode i)

/-- The items of a line that no longer expands. Where `rk_idx` is a don't-care the host drives 0
(95_test_vectors.md section 3). -/
def HostLine.baseItems : HostLine → List HostItem
  | .reset => [.ofInstr (.reset false .encrypt 0)]
  | .enc k b => [.ofInstr (.encrypt 0 k b)]
  | .dec k b => [.ofInstr (.decrypt 0 k b)]
  | .nop n => List.replicate n (.ofInstr (.nop .encrypt 0))
  | .read => [.read]
  | .rkRead i => [.ofInstr (.rkRead i)]
  | .wait => [.wait]
  | .encw _ _ => []
  | .decw _ _ => []
  | .rkDump => []

/-- The items of any line. -/
def HostLine.items (line : HostLine) : List HostItem := line.expand.flatMap HostLine.baseItems

/-- A program waits before the machine: its items join the host's queue. -/
def State.loadProgram (s : State) (program : List HostLine) : State :=
  { s with host := s.host ++ program.flatMap HostLine.items }

/-- Accesses performed one after another, stopping at the first that stops. -/
def execAll : List Instr → State → Host.Outcome State Fault Refusal
  | [], s => .next s
  | i :: is, s =>
    match exec i s with
    | .next s' => execAll is s'
    | .fault r => .fault r
    | .refused r => .refused r

/-- WAIT with a bound: a NOP edge, then poll `done`, until it is sampled as 1 or the bound is used up
(30_encoding.md R79; 95_test_vectors.md P1). -/
def waitLoop : Nat → State → Host.Outcome State Fault Refusal
  | 0, s => .next s
  | n + 1, s =>
    match exec waitAccess s with
    | .next s' => if done s' then .next s' else waitLoop n s'
    | .fault r => .fault r
    | .refused r => .refused r

end Sys2Proof.Machine
end

