-- ==== Sys2Proof/Safety.lean ====
section
/-! DEFINITION. The invariant of the sequencer and the terms the statements use. The host contract
(70_reset_and_hazards.md R230) is `hostRun` of Machine/Contract.lean. -/

namespace Sys2Proof

/-- An edge of the core with `rst` = 0: what a host may do at an edge without resetting. -/
def Instr.isRunEdge : Instr → Bool
  | .encrypt _ _ _ => true
  | .decrypt _ _ _ => true
  | .nop _ _ => true
  | _ => false

/-- The value an edge has on the wire `rk_idx` (30_encoding.md R72); an access without an edge has none here. -/
def Instr.edgeRkIdx : Instr → BitVec 4
  | .reset _ _ i => i
  | .encrypt i _ _ => i
  | .decrypt i _ _ => i
  | .nop _ i => i
  | _ => 0

end Sys2Proof

namespace Sys2Proof.Machine

/-- Round keys 0 to `n - 1` are those of the key in `RK[0]` (42_key_schedule.md R125, R130). -/
def ScheduledBelow (s : State) (n : Nat) : Prop :=
  ∀ i : RoundIndex, i.val < n → s.rk.get i = roundKey (s.rk.get 0) i.val

/-- The last value of `ctr` in CIPHER: 10 for ENCRYPT, 0 for DECRYPT (44_cipher.md R184, R185). -/
def lastCipherCtr : Op → RoundIndex
  | .encrypt => 10
  | .decrypt => 0

/-- What holds of the sequencer at every edge: IDLE is as a reset edge left it (70_reset_and_hazards.md R220);
in EXPAND `ctr` is at least 1 and the entries below it are scheduled (10_state.md R23; 42_key_schedule.md
R130); while `rk_valid` is 1 all eleven are (10_state.md R27); in DONE `ctr` is where the command ended
(44_cipher.md R189). -/
structure SequencerInv (s : State) : Prop where
  idle : s.phase = .idle → s.ctr = 0 ∧ s.opReg = .encrypt
  expand : s.phase = .expand → 1 ≤ s.ctr.val ∧ ScheduledBelow s s.ctr.val
  valid : rkValid s = true → ScheduledBelow s 11
  done : s.phase = .done → s.ctr = lastCipherCtr s.opReg

/-- The registers of the hardware agree (10_state.md R21). -/
def SameRegisters (s t : State) : Prop :=
  s.phase = t.phase ∧ s.ctr = t.ctr ∧ s.opReg = t.opReg ∧ s.stateReg = t.stateReg ∧ s.rk = t.rk

/-- Coefficient n of the product of the polynomials `p` and `b` over GF(2) (40_gf28.md R102). -/
def productCoeff {w : Nat} (p : BitVec w) (b : Byte) (n : Nat) : Bool :=
  (List.range 8).foldl (fun acc i => acc ^^ (decide (i ≤ n) && p.getLsbD (n - i) && b.getLsbD i)) false

/-- The affine map of the S-box (41_sbox.md R111). -/
def affine (z : Byte) : Byte :=
  z ^^^ z.rotateLeft 1 ^^^ z.rotateLeft 2 ^^^ z.rotateLeft 3 ^^^ z.rotateLeft 4 ^^^ 0x63

end Sys2Proof.Machine
end

