-- ==== Sys2Proof/Certificates/Slice0/Obligations.lean ====
section
/-! DEFINITION. The statements about this model, from the numbered rules of spec/. A free value (log entries 2,
3, 4) is never given a value here: where a register or a sample is one, the statement leaves it open. The
fields `host`, `sampled`, `rkIdx` and `changes` are the model's own (log entries 11 to 14): what a statement
says of them is the model's choice, and the rules it cites are about the other fields. -/

open Sys2Proof Sys2Proof.Machine

/-! ### Encodings -/

/-- Every operation, with every operand at every value, is read back from its bytes (30_encoding.md R72, R80).
The frame around the control word is the model's choice (log entry 10). -/
def Obligations.DecodeOfEncodedBytes : Prop :=
  ∀ i : Instr, decodeBytes (encodeBytes i) = .ok i

/-- A frame without an edge has one meaning and is the only frame with it (30_encoding.md R80; log entry 10). -/
def Obligations.EncodeOfDecodedFrame : Prop :=
  ∀ (f : Frame) (i : Instr), f.head.getLsbD 7 = true → decode f = .ok i → encode i = f

/-- 30_encoding.md R73: what an edge with control word `cw` is, in priority order, `busy` included. -/
def Obligations.ControlWordSelectsCommand : Prop :=
  ∀ (cw : BitVec 7) (k b : Block) (s : State),
    (cw.getLsbD 6 = true →
      exec (decodeControlWord cw k b) s =
        exec (.reset (cw.getLsbD 5) (Op.ofBool (cw.getLsbD 4)) (cw.extractLsb' 0 4)) s) ∧
    (cw.getLsbD 6 = false → cw.getLsbD 5 = true → busy s = false → cw.getLsbD 4 = false →
      exec (decodeControlWord cw k b) s = exec (.encrypt (cw.extractLsb' 0 4) k b) s) ∧
    (cw.getLsbD 6 = false → cw.getLsbD 5 = true → busy s = false → cw.getLsbD 4 = true →
      exec (decodeControlWord cw k b) s = exec (.decrypt (cw.extractLsb' 0 4) k b) s) ∧
    (cw.getLsbD 6 = false → cw.getLsbD 5 = true → busy s = true →
      exec (decodeControlWord cw k b) s =
        exec (.nop (Op.ofBool (cw.getLsbD 4)) (cw.extractLsb' 0 4)) s) ∧
    (cw.getLsbD 6 = false → cw.getLsbD 5 = false →
      exec (decodeControlWord cw k b) s =
        exec (.nop (Op.ofBool (cw.getLsbD 4)) (cw.extractLsb' 0 4)) s)

/-- Each of the 128 control words is covered by exactly one row of the table, and decodes to that row's
command, whatever the data inputs are (30_encoding.md R73, R78, R80). -/
def Obligations.ControlWordRowsPartitionWords : Prop :=
  ∀ (cw : BitVec 7) (k b : Block),
    (cwRows.filter (CwRow.covers · cw)).map CwRow.mnemonic = [(decodeControlWord cw k b).mnemonic]

/-- Words written out from the spec's encodings (30_encoding.md R72, R76, R79, R80): RESET 0x40, ENC 0x20,
DEC 0x30, NOP 0x00, and the select bit of the round modules. What is the MODEL's choice here and no rule of the
spec: `decodeTableWord` takes a word's first byte as a control word, so that 0x0A, which 95_test_vectors.md section 3
holds during RKREAD 10, reads as a NOP with `rk_idx` 10 (log entry 16); and 0x97 and 0x99 are row numbers in the
first byte of the model's own frame (log entry 10). -/
def Obligations.SpecWordsDecode : Prop :=
  decodeTableWord 8 0x40 = some (.reset false .encrypt 0) ∧
  decodeTableWord 8 0x20 = some (.encrypt 0 0 0) ∧
  decodeTableWord 8 0x30 = some (.decrypt 0 0 0) ∧
  decodeTableWord 8 0x00 = some (.nop .encrypt 0) ∧
  decodeTableWord 8 0x0A = some (.nop .encrypt 10) ∧
  (∀ b k : Block, decode ⟨0x97, 0, b, k⟩ = .ok (.encRound b k) ∧
    decode ⟨0x97, 1, b, k⟩ = .ok (.encRoundFinal b k) ∧
    decode ⟨0x99, 0, b, k⟩ = .ok (.decRound b k) ∧
    decode ⟨0x99, 1, b, k⟩ = .ok (.decRoundFirst b k))

/-- The step performs the operation the next frame decodes to, on the state without that item; with nothing
waiting it is an edge with `start` = 0 (30_encoding.md R79; the queue is the model's, log entry 11). A frame that
is no access is refused: this refusal is the MODEL's choice and concerns bits of its own frame only (log entry 10),
for no encoding of the hardware is illegal (30_encoding.md R77). -/
def Obligations.StepPerformsDecodedAccess : Prop :=
  ∀ s : State,
    (∀ (f : Frame) (rest : List HostItem) (i : Instr), s.host = .access f :: rest → decode f = .ok i →
      step s = exec i { s with host := rest }) ∧
    (∀ (f : Frame) (rest : List HostItem) (e : DecodeError), s.host = .access f :: rest → decode f = .error e →
      step s = .refused (.undecodable e)) ∧
    (s.host = [] → step s = exec (.nop .encrypt s.rkIdx) s)

/-- The step performs any operation whose frame waits first (30_encoding.md R79; log entries 10, 11). -/
def Obligations.StepPerformsEncodedAccess : Prop :=
  ∀ (s : State) (i : Instr) (rest : List HostItem), s.host = .access (encode i) :: rest →
    step s = exec i { s with host := rest }

/-- The step's other two items (30_encoding.md R79; the items are the model's, log entries 11, 22). READ takes no
edge: it samples the four outputs and changes no register. A turn of WAIT is a NOP edge, after which the item is
gone if `done` is 1 and stays if it is 0. -/
def Obligations.StepPerformsReadAndWait : Prop :=
  ∀ (s : State) (rest : List HostItem),
    (s.host = .read :: rest →
      step s = .next { s with host := rest, sampled := .outputs ⟨(hostRead s).blockOut, busy s, done s, rkValid s⟩ } ∧
      (done s = true → (hostRead s).blockOut = s.stateReg)) ∧
    (s.host = .wait :: rest → ∀ t, exec (.nop .encrypt 0) s = .next t →
      (done t = true → step s = .next { t with host := rest }) ∧ (done t = false → step s = .next t))

/-! ### Layout -/

/-- One 128-bit value, four views (20_memory.md R50, R51, R67; 00_scope.md R10): byte i at bits
[127-8i : 120-8i], byte k of word j is byte 4j+k, cell s[r][c] is byte 4c+r, and a Block is put back from its
bytes, from its words and from its cells. -/
def Obligations.BlockViewsAgree : Prop :=
  ∀ b : Block,
    (∀ (i : Fin 16) (j : Fin 8), (blockByte b i).getLsbD j.val = b.getLsbD (120 - 8 * i.val + j.val)) ∧
    (∀ (j k : Fin 4), wordByte (blockWord b j) k = blockByte b ⟨4 * j.val + k.val, by omega⟩) ∧
    (∀ (r c : Fin 4), cell b r c = blockByte b ⟨4 * c.val + r.val, by omega⟩) ∧
    blockOf (blockByte b) = b ∧
    blockOfWords (blockWord b 0) (blockWord b 1) (blockWord b 2) (blockWord b 3) = b ∧
    blockOfCells (cell b) = b

/-! ### Field arithmetic -/

/-- GF28_ADD samples `a ^ b`, writes no register, and gives 0 for equal operands and `a` for `b` = 0
(40_gf28.md R100). -/
def Obligations.FieldAddIsXor : Prop :=
  ∀ (s : State) (a b : Byte),
    exec (.gf28Add a b) s = .next { s with sampled := .byte (a ^^^ b) } ∧
    exec (.gf28Add a a) s = .next { s with sampled := .byte 0 } ∧
    exec (.gf28Add a 0) s = .next { s with sampled := .byte a }

/-- GF28_SUB samples `a ^ b`: the same as GF28_ADD (40_gf28.md R101). -/
def Obligations.FieldSubIsAdd : Prop :=
  ∀ (s : State) (a b : Byte),
    exec (.gf28Sub a b) s = .next { s with sampled := .byte (a ^^^ b) } ∧
    exec (.gf28Sub a b) s = exec (.gf28Add a b) s

/-- GF28_MULT completes, writes no register, and samples the remainder of the polynomial product modulo 0x11B:
the product is the sampled byte plus a multiple of 0x11B (40_gf28.md R102). -/
def Obligations.FieldMultIsProductModPolynomial : Prop :=
  ∀ (s : State) (a b : Byte), ∃ y q : Byte,
    exec (.gf28Mult a b) s = .next { s with sampled := .byte y } ∧
    ∀ n, productCoeff a b n = (y.getLsbD n ^^ productCoeff (0x11B : BitVec 9) q n)

/-- The laws of 40_gf28.md R103 that concern the product, and R102's corner cases: commutative, distributive,
with zero and one; multiplication by 0x02 shifts and reduces by 0x1B. -/
def Obligations.FieldMultLaws : Prop :=
  ∀ a b c : Byte,
    gf28Mult a b = gf28Mult b a ∧
    gf28Mult a (gf28Add b c) = gf28Add (gf28Mult a b) (gf28Mult a c) ∧
    gf28Mult a 0 = 0 ∧
    gf28Mult a 1 = a ∧
    gf28Mult a 2 = (a <<< 1) ^^^ (if a.getLsbD 7 then 0x1B else 0)

/-! ### Substitution tables -/

/-- SBOX_FWD and SBOX_INV complete, write no register, and undo each other (41_sbox.md R110, R112, R113). -/
def Obligations.SboxesAreInverse : Prop :=
  ∀ (s : State) (v : Byte),
    exec (.sboxFwd v) s = .next { s with sampled := .byte (sboxFwd v) } ∧
    exec (.sboxInv v) s = .next { s with sampled := .byte (sboxInv v) } ∧
    sboxInv (sboxFwd v) = v ∧
    sboxFwd (sboxInv v) = v

/-- SBOX_FWD samples the affine image of the field inverse (41_sbox.md R111), and has no fixed point (R110).
The inverse of 0 is 0. -/
def Obligations.SboxIsAffineOfInverse : Prop :=
  ∀ (s : State) (x : Byte), ∃ z : Byte,
    (x = 0 → z = 0) ∧ (x ≠ 0 → gf28Mult x z = 1) ∧
    exec (.sboxFwd x) s = .next { s with sampled := .byte (affine z) } ∧
    sboxFwd x ≠ x

/-! ### Key schedule -/

/-- RCON samples the table of 42_key_schedule.md R120, rounds 0 to 15 in order, the reserved ones 0x00. That
each defined constant after the first is the field double of the one before is the spec's inference in R120. -/
def Obligations.RoundConstants : Prop :=
  (∀ (s : State) (r : BitVec 4), exec (.rcon r) s = .next { s with sampled := .byte (rcon r) }) ∧
  (List.range 16).map (fun n => rcon (BitVec.ofNat 4 n)) =
    [0x00, 0x01, 0x02, 0x04, 0x08, 0x10, 0x20, 0x40, 0x80, 0x1B, 0x36, 0x00, 0x00, 0x00, 0x00, 0x00] ∧
  (∀ r : BitVec 4, 1 ≤ r.toNat → r.toNat ≤ 9 → rcon (r + 1) = gf28Mult (rcon r) 2)

/-- ROT_WORD, SUB_WORD and G_FUNC complete and sample the Word whose bytes the rules give
(42_key_schedule.md R121, R122, R123). R123 gives `r` in 1..10; that G_FUNC runs at `r` = 0 and 11..15 too, with
the constant 0x00 of R120, is the MODEL's reading (log entry 6). -/
def Obligations.KeyWordFunctions : Prop :=
  ∀ (s : State) (w : Word) (r : BitVec 4),
    (∃ y, exec (.rotWord w) s = .next { s with sampled := .word y } ∧
      wordByte y 0 = wordByte w 1 ∧ wordByte y 1 = wordByte w 2 ∧
      wordByte y 2 = wordByte w 3 ∧ wordByte y 3 = wordByte w 0) ∧
    (∃ y, exec (.subWord w) s = .next { s with sampled := .word y } ∧
      ∀ k, wordByte y k = sboxFwd (wordByte w k)) ∧
    (∃ y, exec (.gFunc w r) s = .next { s with sampled := .word y } ∧
      wordByte y 0 = sboxFwd (wordByte w 1) ^^^ rcon r ∧ wordByte y 1 = sboxFwd (wordByte w 2) ∧
      wordByte y 2 = sboxFwd (wordByte w 3) ∧ wordByte y 3 = sboxFwd (wordByte w 0))

/-- KEY_STEP completes for every round number, the reserved ones too, and samples the Block whose Words are
the running exclusive-or chain (42_key_schedule.md R124). -/
def Obligations.KeyStepIsXorChain : Prop :=
  ∀ (s : State) (p : Block) (r : BitVec 4), ∃ y : Block,
    exec (.keyStep p r) s = .next { s with sampled := .block y } ∧
    blockWord y 0 = blockWord p 0 ^^^ gFunc (blockWord p 3) r ∧
    blockWord y 1 = blockWord p 1 ^^^ blockWord y 0 ∧
    blockWord y 2 = blockWord p 2 ^^^ blockWord y 1 ∧
    blockWord y 3 = blockWord p 3 ^^^ blockWord y 2

/-- KEY_EXPAND completes; on `rk_all` round key 0 is the key and each next one the key step of the one before
(42_key_schedule.md R125; 30_encoding.md R75). -/
def Obligations.KeyExpandIteratesKeyStep : Prop :=
  ∀ (s : State) (key : Block), ∃ v : RkAll,
    exec (.keyExpand key) s = .next { s with sampled := .rkAll v } ∧
    v.extractLsb' 1280 128 = key ∧
    ∀ r : Nat, 1 ≤ r → r ≤ 10 →
      v.extractLsb' (1280 - 128 * r) 128 = keyStep (v.extractLsb' (1280 - 128 * (r - 1)) 128) (BitVec.ofNat 4 r)

/-! ### Round transformations -/

/-- ADD_ROUND_KEY is exclusive-or on 128 bits and undoes itself (43_round.md R140). -/
def Obligations.AddRoundKeyIsXor : Prop :=
  ∀ (s : State) (b k : Block),
    exec (.addRoundKey b k) s = .next { s with sampled := .block (b ^^^ k) } ∧
    exec (.addRoundKey (b ^^^ k) k) s = .next { s with sampled := .block b }

/-- SUB_BYTES and INV_SUB_BYTES complete and substitute each byte in its place (43_round.md R141, R142). -/
def Obligations.SubBytesActBytewise : Prop :=
  ∀ (s : State) (b : Block),
    (∃ y, exec (.subBytes b) s = .next { s with sampled := .block y } ∧
      ∀ i, blockByte y i = sboxFwd (blockByte b i)) ∧
    (∃ y, exec (.invSubBytes b) s = .next { s with sampled := .block y } ∧
      ∀ i, blockByte y i = sboxInv (blockByte b i))

/-- SHIFT_ROWS and INV_SHIFT_ROWS complete and move Block bytes as 43_round.md R143, R144 give:
byte 4c+r comes from byte 4((c+r) mod 4)+r, or from byte 4((c+4-r) mod 4)+r; INV_SHIFT_ROWS undoes
SHIFT_ROWS. -/
def Obligations.ShiftRowsRotateRows : Prop :=
  ∀ (s : State) (b : Block),
    (∃ y, exec (.shiftRows b) s = .next { s with sampled := .block y } ∧
      ∀ r c : Fin 4, blockByte y ⟨4 * c.val + r.val, by omega⟩ =
        blockByte b ⟨4 * ((c.val + r.val) % 4) + r.val, by omega⟩) ∧
    (∃ y, exec (.invShiftRows b) s = .next { s with sampled := .block y } ∧
      ∀ r c : Fin 4, blockByte y ⟨4 * c.val + r.val, by omega⟩ =
        blockByte b ⟨4 * ((c.val + 4 - r.val) % 4) + r.val, by omega⟩) ∧
    exec (.invShiftRows (shiftRows b)) s = .next { s with sampled := .block b }

/-- MIX_COLUMNS completes; each column is multiplied by the matrix of 43_round.md R145. -/
def Obligations.MixColumnsMultipliesColumns : Prop :=
  ∀ (s : State) (b : Block), ∃ y,
    exec (.mixColumns b) s = .next { s with sampled := .block y } ∧
    ∀ c : Fin 4,
      cell y 0 c = gf28Mult 2 (cell b 0 c) ^^^ gf28Mult 3 (cell b 1 c) ^^^ cell b 2 c ^^^ cell b 3 c ∧
      cell y 1 c = cell b 0 c ^^^ gf28Mult 2 (cell b 1 c) ^^^ gf28Mult 3 (cell b 2 c) ^^^ cell b 3 c ∧
      cell y 2 c = cell b 0 c ^^^ cell b 1 c ^^^ gf28Mult 2 (cell b 2 c) ^^^ gf28Mult 3 (cell b 3 c) ∧
      cell y 3 c = gf28Mult 3 (cell b 0 c) ^^^ cell b 1 c ^^^ cell b 2 c ^^^ gf28Mult 2 (cell b 3 c)

/-- INV_MIX_COLUMNS completes; each column is multiplied by the matrix of 43_round.md R146; it undoes
MIX_COLUMNS. -/
def Obligations.InvMixColumnsMultipliesColumns : Prop :=
  ∀ (s : State) (b : Block),
    exec (.invMixColumns (mixColumns b)) s = .next { s with sampled := .block b } ∧
    ∃ y, exec (.invMixColumns b) s = .next { s with sampled := .block y } ∧
    ∀ c : Fin 4,
      cell y 0 c = gf28Mult 14 (cell b 0 c) ^^^ gf28Mult 11 (cell b 1 c) ^^^
        gf28Mult 13 (cell b 2 c) ^^^ gf28Mult 9 (cell b 3 c) ∧
      cell y 1 c = gf28Mult 9 (cell b 0 c) ^^^ gf28Mult 14 (cell b 1 c) ^^^
        gf28Mult 11 (cell b 2 c) ^^^ gf28Mult 13 (cell b 3 c) ∧
      cell y 2 c = gf28Mult 13 (cell b 0 c) ^^^ gf28Mult 9 (cell b 1 c) ^^^
        gf28Mult 14 (cell b 2 c) ^^^ gf28Mult 11 (cell b 3 c) ∧
      cell y 3 c = gf28Mult 11 (cell b 0 c) ^^^ gf28Mult 13 (cell b 1 c) ^^^
        gf28Mult 9 (cell b 2 c) ^^^ gf28Mult 14 (cell b 3 c)

/-- The inverse laws of 43_round.md R151. -/
def Obligations.RoundTransformationsInvert : Prop :=
  ∀ b k : Block,
    addRoundKey (addRoundKey b k) k = b ∧
    invSubBytes (subBytes b) = b ∧
    subBytes (invSubBytes b) = b ∧
    invShiftRows (shiftRows b) = b ∧
    invMixColumns (mixColumns b) = b

/-- The four round operations complete and compose the transformations as 43_round.md R147 to R150 give. -/
def Obligations.RoundModulesCompose : Prop :=
  ∀ (s : State) (x k : Block),
    exec (.encRound x k) s =
      .next { s with sampled := .block (addRoundKey (mixColumns (shiftRows (subBytes x))) k) } ∧
    exec (.encRoundFinal x k) s =
      .next { s with sampled := .block (addRoundKey (shiftRows (subBytes x)) k) } ∧
    exec (.decRound x k) s =
      .next { s with sampled := .block (invSubBytes (invShiftRows (invMixColumns (addRoundKey x k)))) } ∧
    exec (.decRoundFirst x k) s =
      .next { s with sampled := .block (invSubBytes (invShiftRows (addRoundKey x k))) }

/-- Each inverse round undoes the round with its select and round key (43_round.md R149, R150). -/
def Obligations.DecRoundUndoesEncRound : Prop :=
  ∀ (x k : Block) (skipMix : Bool), aesDecRound (aesEncRound x k skipMix) k skipMix = x

/-! ### The cipher -/

/-- AES128_ENCRYPT and AES128_DECRYPT complete and sample the last Block of the chain of rounds
(44_cipher.md R170, R171). -/
def Obligations.CipherFunctionsChainRounds : Prop :=
  ∀ (s : State) (b k : Block),
    (∃ x : Nat → Block,
      x 0 = addRoundKey b (roundKey k 0) ∧
      (∀ r, 1 ≤ r → r ≤ 9 → x r = aesEncRound (x (r - 1)) (roundKey k r) false) ∧
      exec (.aes128Encrypt b k) s =
        .next { s with sampled := .block (aesEncRound (x 9) (roundKey k 10) true) }) ∧
    (∃ x : Nat → Block,
      x 10 = aesDecRound b (roundKey k 10) true ∧
      (∀ r, 1 ≤ r → r ≤ 9 → x r = aesDecRound (x (r + 1)) (roundKey k r) false) ∧
      exec (.aes128Decrypt b k) s = .next { s with sampled := .block (addRoundKey (x 1) (roundKey k 0)) })

/-- Decryption undoes encryption for every block and key (44_cipher.md R172). -/
def Obligations.CipherRoundTrip : Prop :=
  ∀ b k : Block, aes128Decrypt (aes128Encrypt b k) k = b

/-! ### The commands, edge by edge -/

/-- A reset edge completes from every state and leaves IDLE, `ctr` 0, `op_reg` 0, all status outputs 0 and
`rk_out` zero at the reserved indices (10_state.md R34; 70_reset_and_hazards.md R220). `state_reg` and `RK`
are unspecified after it and not constrained here (log entry 2). -/
def Obligations.ResetEdgeState : Prop :=
  ∀ (s : State) (start : Bool) (op : Op) (i : BitVec 4), ∃ t,
    exec (.reset start op i) s = .next t ∧
    t.phase = .idle ∧ t.ctr = 0 ∧ t.opReg = .encrypt ∧
    busy t = false ∧ done t = false ∧ rkValid t = false ∧
    (∀ j : BitVec 4, 10 < j.toNat → rkPort t j = 0) ∧
    t.rkIdx = i ∧ t.host = s.host ∧ t.sampled = s.sampled

/-- Command acceptance (44_cipher.md R181): what the accepting edge writes and that it writes nothing else.
It is the only edge that looks at `op`, `key_in` and `block_in`: while `busy` they make no difference, and so
do they under reset. -/
def Obligations.CommandAcceptance : Prop :=
  (∀ (s : State) (i : BitVec 4) (k b : Block), busy s = false →
    exec (.encrypt i k b) s = .next { s with
      phase := .expand, ctr := 1, opReg := .encrypt, stateReg := b, rk := s.rk.set 0 k,
      rkIdx := i, changes := s.changes + 1 } ∧
    exec (.decrypt i k b) s = .next { s with
      phase := .expand, ctr := 1, opReg := .decrypt, stateReg := b, rk := s.rk.set 0 k,
      rkIdx := i, changes := s.changes + 1 }) ∧
  (∀ (s : State) (i : BitVec 4) (k b k' b' : Block), busy s = true →
    exec (.encrypt i k b) s = exec (.decrypt i k' b') s) ∧
  (∀ (s : State) (i : BitVec 4) (start start' : Bool) (op op' : Op),
    exec (.reset start op i) s = exec (.reset start' op' i) s) ∧
  (∀ (s : State) (i : BitVec 4) (op op' : Op), exec (.nop op i) s = exec (.nop op' i) s)

/-- Hold (44_cipher.md R182): with `start` = 0 in IDLE and DONE any number of edges changes no register, so
the result and the schedule stay. -/
def Obligations.HoldKeepsRegisters : Prop :=
  ∀ (s : State) (op : Op) (i : BitVec 4), busy s = false →
    exec (.nop op i) s = .next { s with rkIdx := i } ∧
    ∀ n, ∃ t, execAll (List.replicate n (.nop op i)) s = .next t ∧ SameRegisters s t ∧
      blockOut t = blockOut s ∧ (∀ j, rkPort t j = rkPort s j)

/-- Start while busy (44_cipher.md R183): the edge is exactly the edge with `start` = 0. -/
def Obligations.StartWhileBusyIgnored : Prop :=
  ∀ (s : State) (i : BitVec 4) (k b : Block) (op : Op), busy s = true →
    exec (.encrypt i k b) s = exec (.nop op i) s ∧ exec (.decrypt i k b) s = exec (.nop op i) s

/-- The EXPAND step (42_key_schedule.md R130), at any edge without reset, `start` or not: the round key `ctr`
names is written, `ctr` counts up to 10, and the last edge goes to CIPHER with the command's first counter. -/
def Obligations.ExpandStepWritesRoundKey : Prop :=
  ∀ (s : State) (e : Instr), s.phase = .expand → e.isRunEdge = true →
    (∀ h : s.ctr.val < 10, 1 ≤ s.ctr.val → exec e s = .next { s with
      rk := s.rk.set s.ctr.val (keyStep (s.rk.get ⟨s.ctr.val - 1, by omega⟩) (BitVec.ofNat 4 s.ctr.val)),
      ctr := ⟨s.ctr.val + 1, by omega⟩, rkIdx := e.edgeRkIdx, changes := s.changes + 1 }) ∧
    (s.ctr = 10 → exec e s = .next { s with
      rk := s.rk.set 10 (keyStep (s.rk.get 9) 10),
      phase := .cipher, ctr := (match s.opReg with | .encrypt => 0 | .decrypt => 10),
      rkIdx := e.edgeRkIdx, changes := s.changes + 1 })

/-- Ten edges from `ctr` = 1 leave the whole schedule of the key in `RK[0]`, and `state_reg` and `op_reg` as
they were: the spec's inference in 42_key_schedule.md R130. -/
def Obligations.TenExpandEdgesLeaveSchedule : Prop :=
  ∀ (s : State) (es : List Instr), s.phase = .expand → s.ctr = 1 → es.length = 10 →
    (∀ e ∈ es, e.isRunEdge = true) →
    ∃ t, execAll es s = .next t ∧ t.phase = .cipher ∧ t.stateReg = s.stateReg ∧ t.opReg = s.opReg ∧
      t.rk = keyExpand (s.rk.get 0)

/-- The encryption step (44_cipher.md R184), with the dispatched round key `RK[ctr]`, at any edge without
reset. -/
def Obligations.EncryptionStep : Prop :=
  ∀ (s : State) (e : Instr), s.phase = .cipher → s.opReg = .encrypt → e.isRunEdge = true →
    (s.ctr = 0 → exec e s = .next { s with
      stateReg := addRoundKey s.stateReg (s.rk.get 0), ctr := 1,
      rkIdx := e.edgeRkIdx, changes := s.changes + 1 }) ∧
    (∀ h : s.ctr.val < 10, 1 ≤ s.ctr.val → exec e s = .next { s with
      stateReg := aesEncRound s.stateReg (s.rk.get s.ctr) false, ctr := ⟨s.ctr.val + 1, by omega⟩,
      rkIdx := e.edgeRkIdx, changes := s.changes + 1 }) ∧
    (s.ctr = 10 → exec e s = .next { s with
      stateReg := aesEncRound s.stateReg (s.rk.get 10) true, phase := .done,
      rkIdx := e.edgeRkIdx, changes := s.changes + 1 })

/-- The decryption step (44_cipher.md R185), with the dispatched round key `RK[ctr]`, at any edge without
reset. -/
def Obligations.DecryptionStep : Prop :=
  ∀ (s : State) (e : Instr), s.phase = .cipher → s.opReg = .decrypt → e.isRunEdge = true →
    (s.ctr = 10 → exec e s = .next { s with
      stateReg := aesDecRound s.stateReg (s.rk.get 10) true, ctr := 9,
      rkIdx := e.edgeRkIdx, changes := s.changes + 1 }) ∧
    (1 ≤ s.ctr.val → s.ctr.val < 10 → exec e s = .next { s with
      stateReg := aesDecRound s.stateReg (s.rk.get s.ctr) false, ctr := ⟨s.ctr.val - 1, by omega⟩,
      rkIdx := e.edgeRkIdx, changes := s.changes + 1 }) ∧
    (s.ctr = 0 → exec e s = .next { s with
      stateReg := addRoundKey s.stateReg (s.rk.get 0), phase := .done,
      rkIdx := e.edgeRkIdx, changes := s.changes + 1 })

/-- The one stop of an edge, the model's choice (log entry 9): in EXPAND with `ctr` = 0, outside the range
10_state.md R23 gives, an edge without reset faults. -/
def Obligations.ExpandWithCounterZeroFaults : Prop :=
  ∀ (s : State) (e : Instr), s.phase = .expand → s.ctr = 0 → e.isRunEdge = true →
    exec e s = .fault .expandIndexZero

/-- RK_READ (20_memory.md R55, R57; 70_reset_and_hazards.md R229): it completes, drives `rk_idx`, samples one
Block and changes nothing else; the Block is `RK[i]` for a defined index while `rk_valid` is 1 and zero for a
reserved index; the wire `rk_out` itself is R55's at all times; the same read again samples the same. -/
def Obligations.RoundKeyRead : Prop :=
  ∀ (s : State) (i : BitVec 4), ∃ v : Block,
    exec (.rkRead i) s = .next { s with rkIdx := i, sampled := .block v } ∧
    (∀ h : i.toNat < 11, rkValid s = true → v = s.rk.get ⟨i.toNat, h⟩) ∧
    (11 ≤ i.toNat → v = 0) ∧
    (∀ h : i.toNat < 11, rkOut { s with rkIdx := i } = s.rk.get ⟨i.toNat, h⟩) ∧
    (11 ≤ i.toNat → rkOut { s with rkIdx := i } = 0) ∧
    exec (.rkRead i) { s with rkIdx := i, sampled := .block v } = exec (.rkRead i) s

/-- Reads repeat (20_memory.md R57): whatever an access or a step has done, if every register of the hardware is as
before, a READ samples the same and so does RK_READ at every index. This holds of the free values too (log entries
3, 4, 14). -/
def Obligations.ReadsRepeatUntilStateChanges : Prop :=
  ∀ (i : Instr) (s t : State), (exec i s = .next t ∨ step s = .next t) → SameRegisters s t →
    hostRead t = hostRead s ∧
    ∀ j, ∃ v, exec (.rkRead j) s = .next { s with rkIdx := j, sampled := .block v } ∧
      exec (.rkRead j) t = .next { t with rkIdx := j, sampled := .block v }

/-- The status outputs are functions of `phase`, `busy` and `done` are never both 1, and where the sequencer's
invariant holds `rk_valid` = 1 means that `RK[0..10]` are the schedule of the key in `RK[0]`
(10_state.md R27; 20_memory.md R54 for `block_out`). -/
def Obligations.StatusOutputs : Prop :=
  ∀ s : State,
    (busy s = true ↔ s.phase = .expand ∨ s.phase = .cipher) ∧
    (done s = true ↔ s.phase = .done) ∧
    (rkValid s = true ↔ s.phase = .cipher ∨ s.phase = .done) ∧
    ¬ (busy s = true ∧ done s = true) ∧
    blockOut s = s.stateReg ∧
    (SequencerInv s → rkValid s = true → s.rk = keyExpand (s.rk.get 0))

/-! ### Whole commands -/

/-- ENCRYPT (44_cipher.md R186): accepted in any state with `busy` = 0, and whatever the host drives at the
next edges short of a reset, it completes with the status outputs edge by edge, and after the 21st edge the
result, the schedule and `op_reg` are those of its operands. -/
def Obligations.EncryptCommandResult : Prop :=
  ∀ (s : State) (i : BitVec 4) (k b : Block) (es : List Instr), busy s = false →
    (∀ e ∈ es, e.isRunEdge = true) → es.length ≤ 21 →
    ∃ t, execAll (.encrypt i k b :: es) s = .next t ∧
      busy t = decide (es.length < 21) ∧ done t = decide (es.length = 21) ∧
      rkValid t = decide (10 ≤ es.length) ∧ t.opReg = .encrypt ∧
      (es.length = 21 → t.phase = .done ∧ blockOut t = aes128Encrypt b k ∧ t.rk = keyExpand k)

/-- DECRYPT (44_cipher.md R187): as ENCRYPT, with the decryption of its operands. -/
def Obligations.DecryptCommandResult : Prop :=
  ∀ (s : State) (i : BitVec 4) (k c : Block) (es : List Instr), busy s = false →
    (∀ e ∈ es, e.isRunEdge = true) → es.length ≤ 21 →
    ∃ t, execAll (.decrypt i k c :: es) s = .next t ∧
      busy t = decide (es.length < 21) ∧ done t = decide (es.length = 21) ∧
      rkValid t = decide (10 ≤ es.length) ∧ t.opReg = .decrypt ∧
      (es.length = 21 → t.phase = .done ∧ blockOut t = aes128Decrypt c k ∧ t.rk = keyExpand k)

/-- The phase and counter after each edge of a command (44_cipher.md R189, the last column of its table). -/
def Obligations.EdgeSchedule : Prop :=
  ∀ (s : State) (i : BitVec 4) (k b : Block) (es : List Instr), busy s = false →
    (∀ e ∈ es, e.isRunEdge = true) → es.length ≤ 21 →
    (∃ t, execAll (.encrypt i k b :: es) s = .next t ∧
      (es.length ≤ 9 → t.phase = .expand ∧ t.ctr.val = es.length + 1) ∧
      (10 ≤ es.length → es.length ≤ 20 → t.phase = .cipher ∧ t.ctr.val = es.length - 10) ∧
      (es.length = 21 → t.phase = .done ∧ t.ctr.val = 10)) ∧
    (∃ t, execAll (.decrypt i k b :: es) s = .next t ∧
      (es.length ≤ 9 → t.phase = .expand ∧ t.ctr.val = es.length + 1) ∧
      (10 ≤ es.length → es.length ≤ 20 → t.phase = .cipher ∧ t.ctr.val = 20 - es.length) ∧
      (es.length = 21 → t.phase = .done ∧ t.ctr.val = 0))

/-- A DECRYPT of an ENCRYPT's result with the same key, each with its 21 edges, puts the block back on
`block_out` (44_cipher.md R187, R172). -/
def Obligations.CoreRoundTrip : Prop :=
  ∀ (s : State) (i j : BitVec 4) (k b : Block) (es ds : List Instr), busy s = false →
    (∀ e ∈ es, e.isRunEdge = true) → es.length = 21 → (∀ e ∈ ds, e.isRunEdge = true) → ds.length = 21 →
    ∃ t u, execAll (.encrypt i k b :: es) s = .next t ∧
      execAll (.decrypt j k (blockOut t) :: ds) t = .next u ∧ done u = true ∧ blockOut u = b

/-- The host program ENCW K, B (30_encoding.md R79), its items waiting before a core that is not busy, runs in
23 steps of the machine, from bits to result: the command, the 21 turns of WAIT, and READ, which samples the result
with `busy` 0, `done` 1 and `rk_valid` 1 (44_cipher.md R186, R189). DECW does the same for DECRYPT (R187). The
frames, the queue and the items READ and WAIT are the model's (log entries 10, 11, 22). -/
def Obligations.EncwProgramRuns : Prop :=
  ∀ (s : State) (k b : Block), s.host = [] → busy s = false →
    (∃ t, Host.Core.run Sys2Proof.core 23 (s.loadProgram [.encw k b]) = .next t ∧
      t.host = [] ∧ done t = true ∧ t.sampled = .outputs ⟨aes128Encrypt b k, false, true, true⟩ ∧
      t.rk = keyExpand k) ∧
    (∃ t, Host.Core.run Sys2Proof.core 23 (s.loadProgram [.decw k b]) = .next t ∧
      t.host = [] ∧ done t = true ∧ t.sampled = .outputs ⟨aes128Decrypt b k, false, true, true⟩ ∧
      t.rk = keyExpand k)

/-- The polling WAIT after an accepted command is exactly 21 NOP edges, whatever its bound is, 21 or more
(30_encoding.md R79; 44_cipher.md R189). -/
def Obligations.WaitPollsTwentyOneEdges : Prop :=
  ∀ (s t : State) (i : BitVec 4) (k b : Block) (n : Nat), busy s = false → 21 ≤ n →
    (exec (.encrypt i k b) s = .next t ∨ exec (.decrypt i k b) s = .next t) →
    waitLoop n t = execAll (List.replicate 21 (.nop .encrypt 0)) t ∧
    ∃ u, waitLoop n t = .next u ∧ done u = true

/-- WAIT in a program ends when `done` is sampled as 1 and not before (30_encoding.md R79; 44_cipher.md R189; the
queue is the model's, log entries 11, 22). After an ENC or a DEC and `m` NOP edges it takes the `21 - m` edges that
are left, so the three lines take 22 steps for every `m` up to 20, and at each step before the last WAIT still waits.
In IDLE, where nothing runs, it never ends. Begun in DONE it makes one NOP edge, which changes no register, and
ends: that it makes this one is the model's reading (log entry 22). -/
def Obligations.WaitRunsRemainingEdges : Prop :=
  (∀ (s : State) (k b : Block) (m : Nat), s.host = [] → busy s = false → m ≤ 20 →
    ∀ p ∈ [(HostLine.enc k b, aes128Encrypt b k), (HostLine.dec k b, aes128Decrypt b k)],
      (∀ n, n ≤ 20 - m → ∃ t,
        Host.Core.run Sys2Proof.core (1 + m + n) (s.loadProgram [p.1, .nop m, .wait]) = .next t ∧
        t.host = [.wait] ∧ done t = false) ∧
      ∃ t, Host.Core.run Sys2Proof.core 22 (s.loadProgram [p.1, .nop m, .wait]) = .next t ∧
        t.host = [] ∧ done t = true ∧ blockOut t = p.2) ∧
  (∀ (s : State) (n : Nat), s.host = [] → s.phase = .idle → ∃ t,
    Host.Core.run Sys2Proof.core n (s.loadProgram [.wait]) = .next t ∧ t.host = [.wait] ∧ t.phase = .idle) ∧
  ∀ s : State, s.host = [] → s.phase = .done → step (s.loadProgram [.wait]) = .next { s with rkIdx := 0 }

/-! ### The host contract -/

/-- A run of a host program is marked as refused where it departs from the contract
(70_reset_and_hazards.md R230, 60_exceptions.md R201; how the mark is made is the model's, log entry 25).
First, in every state and after every history, with the item next in the queue: (b) a command, RKREAD, READ or WAIT
before a reset edge; (a) a command while `busy` is 1; (c) a READ while `done` is 0, and in IDLE (e) as well; (d)
RKREAD of a reserved index, or while `rk_valid` is 0, and then (e) as well where that round key has not been written
since the last reset edge; and a reserved round number (93_implementation_defined.md U6).
Then in whole programs from power-on: each of them at once, after a reset, and while an ENC or a DEC runs. -/
def Obligations.ContractRefusesDepartures : Prop :=
  (∀ (h : RunHistory) (s : State) (rest : List HostItem) (i j r : BitVec 4) (k b : Block) (w : Word) (n : Nat),
    1 ≤ n →
    (h.booted = false → ∀ x ∈ [HostItem.ofInstr (.encrypt j k b), .ofInstr (.decrypt j k b), .ofInstr (.rkRead i),
      .read, .wait], s.host = x :: rest → hostRun n h s = .refused [.useBeforeReset]) ∧
    (h.booted = true → busy s = true → ∀ x ∈ [HostItem.ofInstr (.encrypt j k b), .ofInstr (.decrypt j k b)],
      s.host = x :: rest → hostRun n h s = .refused [.commandWhileBusy]) ∧
    (h.booted = true → done s = false → s.host = .read :: rest →
      hostRun n h s =
        .refused (if s.phase = .idle then [.blockOutBeforeDone, .survivesReset] else [.blockOutBeforeDone])) ∧
    (h.booted = true → s.host = .ofInstr (.rkRead i) :: rest →
      (11 ≤ i.toNat → hostRun n h s = .refused [.rkOutInvalid]) ∧
      (i.toNat ≤ 10 → rkValid s = false → hostRun n h s =
        .refused (if s.phase = .idle ∨ (h.keyed = false ∧ s.ctr.val ≤ i.toNat) then [.rkOutInvalid, .survivesReset]
          else [.rkOutInvalid]))) ∧
    (r = 0 ∨ 11 ≤ r.toNat → ∀ x ∈ [HostItem.ofInstr (.rcon r), .ofInstr (.gFunc w r), .ofInstr (.keyStep k r)],
      s.host = x :: rest → hostRun n h s = .refused [.reservedRound])) ∧
  ∀ (s : State) (k b k' b' : Block) (i : BitVec 4) (m n : Nat), s.host = [] →
    (1 ≤ n → ∀ l ∈ [HostLine.enc k b, .dec k b, .rkRead i, .read, .wait],
      hostRun n .powerOn (s.loadProgram [l]) = .refused [.useBeforeReset]) ∧
    (2 ≤ n →
      hostRun n .powerOn (s.loadProgram [.reset, .read]) = .refused [.blockOutBeforeDone, .survivesReset] ∧
      hostRun n .powerOn (s.loadProgram [.reset, .rkRead i]) =
        .refused (if i.toNat ≤ 10 then [.rkOutInvalid, .survivesReset] else [.rkOutInvalid])) ∧
    ∀ c ∈ [HostLine.enc k b, .dec k b],
      (m ≤ 20 → m + 3 ≤ n →
        (∀ l ∈ [HostLine.enc k' b', .dec k' b'],
          hostRun n .powerOn (s.loadProgram [.reset, c, .nop m, l]) = .refused [.commandWhileBusy]) ∧
        hostRun n .powerOn (s.loadProgram [.reset, c, .nop m, .read]) = .refused [.blockOutBeforeDone]) ∧
      (i.toNat ≤ 10 → m ≤ 9 → m + 3 ≤ n →
        hostRun n .powerOn (s.loadProgram [.reset, c, .nop m, .rkRead i]) =
          .refused (if m < i.toNat then [.rkOutInvalid, .survivesReset] else [.rkOutInvalid])) ∧
      (11 ≤ i.toNat → m + 3 ≤ n →
        hostRun n .powerOn (s.loadProgram [.reset, c, .nop m, .rkRead i]) = .refused [.rkOutInvalid])

/-- A program that keeps the contract runs from power-on to its result (70_reset_and_hazards.md R223, R228, R229,
R230; 44_cipher.md R186, R187; the queue and the mark are the model's, log entries 11, 22, 25): RESET, either command
with WAIT and READ, and a read of any round key. And in every run that is not refused a READ samples `state_reg`,
with `done` 1. -/
def Obligations.ContractAdmitsPrograms : Prop :=
  (∀ (s : State) (k b : Block) (i : RoundIndex), s.host = [] →
    ∀ p ∈ [(HostLine.encw k b, aes128Encrypt b k), (HostLine.decw k b, aes128Decrypt b k)],
      (∃ t, hostRun 24 .powerOn (s.loadProgram [.reset, p.1]) = .ran t ∧ t.host = [] ∧
        t.sampled = .outputs ⟨p.2, false, true, true⟩) ∧
      ∃ t, hostRun 25 .powerOn (s.loadProgram [.reset, p.1, .rkRead (BitVec.ofNat 4 i.val)]) = .ran t ∧
        t.host = [] ∧ t.sampled = .block (roundKey k i.val)) ∧
  ∀ (h : RunHistory) (s t : State) (rest : List HostItem), s.host = .read :: rest → hostRun 1 h s = .ran t →
    done s = true ∧ t.sampled = .outputs ⟨s.stateReg, false, true, true⟩

/-! ### Rules over every operation -/

/-- No operation stops, for any operands, in any state but the one 10_state.md R23 excludes
(60_exceptions.md R200). -/
def Obligations.NoOperationStops : Prop :=
  ∀ (i : Instr) (s : State), (s.phase = .expand → s.ctr ≠ 0) → ∃ t, exec i s = .next t

/-- Reads and combinational modules change no register and take no edge (10_state.md R20; 20_memory.md R57;
44_cipher.md R180). -/
def Obligations.OnlyEdgesChangeRegisters : Prop :=
  ∀ (i : Instr) (s : State), i.edges = 0 →
    ∃ t, exec i s = .next t ∧ SameRegisters s t ∧ t.host = s.host ∧ t.changes = s.changes ∧
      busy t = busy s ∧ done t = done s ∧ rkValid t = rkValid s ∧ blockOut t = blockOut s

/-- `rk_idx` is a don't-care of every command: two edges that differ only in it leave the same registers
(30_encoding.md R72). -/
def Obligations.RkIdxIsDontCare : Prop :=
  ∀ (s t u : State) (i j : BitVec 4) (start : Bool) (op : Op) (k b : Block),
    (exec (.reset start op i) s = .next t → exec (.reset start op j) s = .next u → SameRegisters t u) ∧
    (exec (.encrypt i k b) s = .next t → exec (.encrypt j k b) s = .next u → SameRegisters t u) ∧
    (exec (.decrypt i k b) s = .next t → exec (.decrypt j k b) s = .next u → SameRegisters t u) ∧
    (exec (.nop op i) s = .next t → exec (.nop op j) s = .next u → SameRegisters t u)

/-- Who writes which register (10_state.md R24, R25, R26; 44_cipher.md R180): short of a reset, `op_reg` and
`RK[0]` change only at an accepting edge, `state_reg` only there or in CIPHER, and a round key from 1 up only
in EXPAND, the entry `ctr` names. -/
def Obligations.RegisterWriters : Prop :=
  ∀ (i : Instr) (s t : State), i.isReset = false → exec i s = .next t →
    (t.opReg ≠ s.opReg ∨ t.rk.get 0 ≠ s.rk.get 0 →
      busy s = false ∧ ∃ j k b, (i = .encrypt j k b ∨ i = .decrypt j k b) ∧ t.rk.get 0 = k) ∧
    (t.stateReg ≠ s.stateReg →
      s.phase = .cipher ∨ (busy s = false ∧ ∃ j k b, (i = .encrypt j k b ∨ i = .decrypt j k b) ∧ t.stateReg = b)) ∧
    (∀ r : RoundIndex, r ≠ 0 → t.rk.get r ≠ s.rk.get r → s.phase = .expand ∧ r = s.ctr)

/-- The phase moves only as 10_state.md R22 and its rules allow, short of a reset: IDLE and DONE hold or start
EXPAND, EXPAND ends in CIPHER, CIPHER in DONE; so a running command ends in no other way (60_exceptions.md R205). -/
def Obligations.PhaseTransitions : Prop :=
  ∀ (i : Instr) (s t : State), i.isReset = false → exec i s = .next t →
    (s.phase = .idle → t.phase = .idle ∨ t.phase = .expand) ∧
    (s.phase = .expand → t.phase = .expand ∨ (s.ctr = 10 ∧ t.phase = .cipher)) ∧
    (s.phase = .cipher → t.phase = .cipher ∨ (s.ctr = lastCipherCtr s.opReg ∧ t.phase = .done)) ∧
    (s.phase = .done → t.phase = .done ∨ t.phase = .expand)

/-- The sequencer does not depend on data (70_reset_and_hazards.md R232): two cores alike in `phase`, `ctr` and
`op_reg`, whatever their registers and operands hold, are alike in them after the same command. -/
def Obligations.LatencyIndependentOfData : Prop :=
  ∀ (s t s' t' : State) (i j : BitVec 4) (start : Bool) (op : Op) (k b k' b' : Block),
    s.phase = t.phase → s.ctr = t.ctr → s.opReg = t.opReg →
    (exec (.reset start op i) s = .next s' ∧ exec (.reset start op j) t = .next t' ∨
      exec (.encrypt i k b) s = .next s' ∧ exec (.encrypt j k' b') t = .next t' ∨
      exec (.decrypt i k b) s = .next s' ∧ exec (.decrypt j k' b') t = .next t' ∨
      exec (.nop op i) s = .next s' ∧ exec (.nop op j) t = .next t') →
    s'.phase = t'.phase ∧ s'.ctr = t'.ctr ∧ s'.opReg = t'.opReg

/-- Holding `rst` for more edges leaves the state that one edge leaves (70_reset_and_hazards.md R222), the
unspecified registers included, for every value they may have (log entries 2, 14); in it the status outputs are 0. -/
def Obligations.RepeatedResetIsOneReset : Prop :=
  ∀ (s : State) (i : BitVec 4) (start : Bool) (op : Op) (n : Nat),
    ∃ t, exec (.reset start op i) s = .next t ∧
      execAll (List.replicate (n + 1) (.reset start op i)) s = .next t ∧
      t.phase = .idle ∧ t.ctr = 0 ∧ t.opReg = .encrypt ∧
      busy t = false ∧ done t = false ∧ rkValid t = false

/-! ### The invariant -/

/-- The sequencer's invariant holds right after reset (10_state.md R34). -/
def Obligations.ResetMeetsSequencerInv : Prop := SequencerInv State.reset

/-- Every step keeps the sequencer's invariant: IDLE as reset left it, EXPAND with `ctr` in 1..10 and the
entries below it scheduled, the whole schedule in CIPHER and DONE, DONE with the counter where the command
ended (10_state.md R23, R27; 42_key_schedule.md R130; 44_cipher.md R189). -/
def Obligations.StepKeepsSequencerInv : Prop :=
  ∀ s s' : State, SequencerInv s → step s = .next s' → SequencerInv s'

/-- Where the sequencer's invariant holds no queue whose frames all decode stops the machine, and both hold again
after the step, so that no number of steps stops it (60_exceptions.md R200; the queue is the model's, log entries 10,
11). -/
def Obligations.DecodedStepsNeverStop : Prop :=
  ∀ s : State, SequencerInv s → (∀ f, .access f ∈ s.host → ∃ i, decode f = .ok i) →
    (∃ s', step s = .next s' ∧ SequencerInv s' ∧ ∀ f, .access f ∈ s'.host → ∃ i, decode f = .ok i) ∧
    ∀ n, ∃ t, Host.Core.run Sys2Proof.core n s = .next t
end

