-- ==== Sys2Proof/Laws/Views.lean ====
section
/-! SUPPORT. The views of a Block, a Word and a schedule: reading back what was put together, and equality by
parts (20_memory.md R50, R51, R67; 30_encoding.md R75). -/

namespace Sys2Proof.Machine

/-! ### Reading a field out of a concatenation -/

/-- The low `k` bits of `x ++ y` are `y`. -/
theorem extract_append_low {w k : Nat} (x : BitVec w) (y : BitVec k) : (x ++ y).extractLsb' 0 k = y := by
  ext j hj
  have h : j < k := hj
  simp [BitVec.getLsbD_append, h]

/-- A field of `x ++ y` that lies above `y` is a field of `x`. -/
theorem extract_append_high {w k : Nat} (x : BitVec w) (y : BitVec k) (n m : Nat) (h : k ≤ n) :
    (x ++ y).extractLsb' n m = x.extractLsb' (n - k) m := by
  ext j hj
  have h1 : ¬ n + j < k := by omega
  have h2 : n + j - k = n - k + j := by omega
  simp [BitVec.getLsbD_append, h1, h2]

/-- A field of an exclusive-or is the exclusive-or of the fields. -/
theorem extract_xor {w : Nat} (x y : BitVec w) (n m : Nat) :
    (x ^^^ y).extractLsb' n m = x.extractLsb' n m ^^^ y.extractLsb' n m := by
  ext j hj
  simp

/-! ### Blocks as bytes and as cells -/

/-- Byte i of the Block made of bytes `f`. -/
@[simp] theorem blockByte_blockOf (f : Fin 16 → Byte) (i : Fin 16) : blockByte (blockOf f) i = f i := by
  unfold blockByte blockOf
  fin_cases i <;>
    simp (disch := omega) only [extract_append_high, extract_append_low, Nat.reduceMul, Nat.reduceSub,
      BitVec.extractLsb'_eq_self] <;> rfl

/-- Bit k of a Block is a bit of one of its bytes. -/
theorem getLsbD_blockByte (b : Block) (k : Nat) (h : k < 128) :
    b.getLsbD k = (blockByte b ⟨15 - k / 8, by omega⟩).getLsbD (k % 8) := by
  have h1 : k % 8 < 8 := by omega
  have h2 : 120 - 8 * (15 - k / 8) + k % 8 = k := by omega
  simp [blockByte, h1, h2]

/-- Blocks with the same bytes are the same Block. -/
theorem block_ext {b c : Block} (h : ∀ i, blockByte b i = blockByte c i) : b = c := by
  apply BitVec.eq_of_getLsbD_eq
  intro k hk
  rw [getLsbD_blockByte b k hk, getLsbD_blockByte c k hk, h]

/-- Cell s[r][c] is the byte at row r of column c. -/
theorem rowOf_cellIndex (r c : Fin 4) : rowOf (cellIndex r c) = r := by
  apply Fin.ext; simp [rowOf, cellIndex]

/-- Cell s[r][c] is in column c. -/
theorem colOf_cellIndex (r c : Fin 4) : colOf (cellIndex r c) = c := by
  apply Fin.ext; simp [colOf, cellIndex]; omega

/-- Byte i is the cell at its row and column. -/
theorem cellIndex_rowOf_colOf (i : Fin 16) : cellIndex (rowOf i) (colOf i) = i := by
  apply Fin.ext; simp [rowOf, colOf, cellIndex]; omega

/-- Cell s[r][c] of the Block made of cells `f`. -/
@[simp] theorem cell_blockOfCells (f : Fin 4 → Fin 4 → Byte) (r c : Fin 4) : cell (blockOfCells f) r c = f r c := by
  simp [cell, blockOfCells, rowOf_cellIndex, colOf_cellIndex]

/-- Blocks with the same cells are the same Block. -/
theorem block_ext_cells {b d : Block} (h : ∀ r c, cell b r c = cell d r c) : b = d := by
  apply block_ext
  intro i
  have := h (rowOf i) (colOf i)
  simpa [cell, cellIndex_rowOf_colOf] using this

/-! ### Words -/

/-- The bytes of the Word made of four bytes. -/
@[simp] theorem wordByte_wordOf_0 (a b c d : Byte) : wordByte (wordOf a b c d) 0 = a := by
  show (a ++ b ++ c ++ d).extractLsb' 24 8 = a
  simp (disch := omega) only [extract_append_high, Nat.reduceSub, BitVec.extractLsb'_eq_self]

@[simp] theorem wordByte_wordOf_1 (a b c d : Byte) : wordByte (wordOf a b c d) 1 = b := by
  show (a ++ b ++ c ++ d).extractLsb' 16 8 = b
  simp (disch := omega) only [extract_append_high, extract_append_low, Nat.reduceSub]

@[simp] theorem wordByte_wordOf_2 (a b c d : Byte) : wordByte (wordOf a b c d) 2 = c := by
  show (a ++ b ++ c ++ d).extractLsb' 8 8 = c
  simp (disch := omega) only [extract_append_high, extract_append_low, Nat.reduceSub]

@[simp] theorem wordByte_wordOf_3 (a b c d : Byte) : wordByte (wordOf a b c d) 3 = d := by
  show (a ++ b ++ c ++ d).extractLsb' 0 8 = d
  exact extract_append_low _ _

/-- The Words of the Block made of four Words. -/
@[simp] theorem blockWord_blockOfWords_0 (a b c d : Word) : blockWord (blockOfWords a b c d) 0 = a := by
  show (a ++ b ++ c ++ d).extractLsb' 96 32 = a
  simp (disch := omega) only [extract_append_high, Nat.reduceSub, BitVec.extractLsb'_eq_self]

@[simp] theorem blockWord_blockOfWords_1 (a b c d : Word) : blockWord (blockOfWords a b c d) 1 = b := by
  show (a ++ b ++ c ++ d).extractLsb' 64 32 = b
  simp (disch := omega) only [extract_append_high, extract_append_low, Nat.reduceSub]

@[simp] theorem blockWord_blockOfWords_2 (a b c d : Word) : blockWord (blockOfWords a b c d) 2 = c := by
  show (a ++ b ++ c ++ d).extractLsb' 32 32 = c
  simp (disch := omega) only [extract_append_high, extract_append_low, Nat.reduceSub]

@[simp] theorem blockWord_blockOfWords_3 (a b c d : Word) : blockWord (blockOfWords a b c d) 3 = d := by
  show (a ++ b ++ c ++ d).extractLsb' 0 32 = d
  exact extract_append_low _ _

/-! ### The schedule -/

/-- Round key i on the port `rk_all`. -/
@[simp] theorem rkAllEntry_packSchedule (v : Schedule) (i : RoundIndex) :
    rkAllEntry (packSchedule v) i = v.get i := by
  unfold rkAllEntry packSchedule
  fin_cases i <;>
    simp (disch := omega) only [extract_append_high, extract_append_low, Nat.reduceMul, Nat.reduceSub,
      BitVec.extractLsb'_eq_self] <;> rfl

/-- Entry i of the expanded key is round key i. -/
@[simp] theorem keyExpand_get (key : Block) (i : RoundIndex) : (keyExpand key).get i = roundKey key i.val := by
  simp [keyExpand, Vector.get_eq_getElem]

/-- A schedule all of whose entries are a key's round keys is that key's expansion. -/
theorem schedule_eq_keyExpand {v : Schedule} {key : Block} (h : ∀ i, v.get i = roundKey key i.val) :
    v = keyExpand key := by
  apply Vector.ext
  intro i hi
  have := h ⟨i, hi⟩
  simpa [keyExpand, Vector.get_eq_getElem] using this

end Sys2Proof.Machine
end

