-- ==== Sys2Proof/Laws/Decode.lean ====
section
/-! SUPPORT. The fields of a frame read back: control words, operands, bytes. -/

namespace Sys2Proof

open Machine (extract_append_low extract_append_high)

@[simp] theorem Op.ofBool_toBool (op : Op) : Op.ofBool op.toBool = op := by cases op <;> rfl

/-! ### The control word (30_encoding.md R72) -/

theorem controlWord_rst (rst start : Bool) (op : Op) (i : BitVec 4) :
    (controlWord rst start op i).getLsbD 6 = rst := by
  revert i; cases rst <;> cases start <;> cases op <;> decide

theorem controlWord_start (rst start : Bool) (op : Op) (i : BitVec 4) :
    (controlWord rst start op i).getLsbD 5 = start := by
  revert i; cases rst <;> cases start <;> cases op <;> decide

theorem controlWord_op (rst start : Bool) (op : Op) (i : BitVec 4) :
    (controlWord rst start op i).getLsbD 4 = op.toBool := by
  revert i; cases rst <;> cases start <;> cases op <;> decide

theorem controlWord_rkIdx (rst start : Bool) (op : Op) (i : BitVec 4) :
    (controlWord rst start op i).extractLsb' 0 4 = i := extract_append_low _ _

/-! ### Operand fields -/

@[simp] theorem selectIndex_indexField (i : BitVec 4) : selectIndex (indexField i) = .ok i := by
  have h : (0#4 ++ i).extractLsb' 4 4 = 0#4 := by rw [extract_append_high _ _ _ _ (le_refl 4)]; rfl
  simpa [selectIndex, indexField, h] using extract_append_low 0#4 i

@[simp] theorem byteOperand_byteField (x : Byte) : byteOperand (byteField x) = .ok x := by
  have h : (0#120 ++ x).extractLsb' 8 120 = 0#120 := by rw [extract_append_high _ _ _ _ (le_refl 8)]; rfl
  simpa [byteOperand, byteField, h] using extract_append_low 0#120 x

@[simp] theorem wordOperand_wordField (w : Word) : wordOperand (wordField w) = .ok w := by
  have h : (0#96 ++ w).extractLsb' 32 96 = 0#96 := by rw [extract_append_high _ _ _ _ (le_refl 32)]; rfl
  simpa [wordOperand, wordField, h] using extract_append_low 0#96 w

@[simp] theorem noSelect_zero : noSelect 0 = .ok () := rfl

@[simp] theorem noOperand_zero : noOperand 0 = .ok () := rfl

/-! ### The two kinds of frame -/

/-- Bit 7 of `head` is the bit put there. -/
theorem head_append (b : BitVec 1) (code : BitVec 7) : (b ++ code : BitVec 8).getLsbD 7 = b.getLsbD 0 := by
  rw [BitVec.getLsbD_append]; simp

/-- The frame of an edge decodes as its control word. -/
theorem decode_edgeFrame (cw : BitVec 7) (k b : Block) :
    decode (edgeFrame cw k b) = .ok (decodeControlWord cw k b) := by
  have h : (0#1 ++ cw : BitVec 8).getLsbD 7 = false := by rw [head_append]; rfl
  have h' : (0#1 ++ cw : BitVec 8).extractLsb' 0 7 = cw := extract_append_low _ _
  unfold decode edgeFrame
  rw [h, h']
  rfl

/-- The frame of an access without an edge decodes by its number. -/
theorem decode_unitFrame (code : BitVec 7) (sel : BitVec 8) (a b : Block) :
    decode (unitFrame code sel a b) = decodeUnit (unitFrame code sel a b) := by
  have h : (1#1 ++ code : BitVec 8).getLsbD 7 = true := by rw [head_append]; rfl
  unfold decode unitFrame
  rw [if_pos h]

/-- The number of such a frame. -/
theorem unitFrame_code (code : BitVec 7) (sel : BitVec 8) (a b : Block) :
    (unitFrame code sel a b).head.extractLsb' 0 7 = code := extract_append_low _ _

/-! ### A Block as a list of bytes -/

/-- The listed bytes are the Block's bytes. -/
theorem blockToBytes_eq (b : Block) :
    blockToBytes b = (List.finRange 16).map (Machine.blockByte b) := rfl

/-- A Block made of listed bytes has them as its bytes. -/
theorem blockByte_blockOfBytes (bs : List Byte) (i : Fin 16) :
    Machine.blockByte (blockOfBytes bs) i = bs.getD i.val 0 :=
  Machine.blockByte_blockOf (fun i => bs.getD i.val 0) i

/-! ### Each operand shape read back -/

section
variable (c : BitVec 7)

theorem decodeByteByte_unitFrame (mk : Byte → Byte → Instr) (a b : Byte) :
    decodeByteByte mk (unitFrame c 0 (byteField a) (byteField b)) = .ok (mk a b) := by
  simp only [decodeByteByte, unitFrame, noSelect_zero, byteOperand_byteField]; rfl

theorem decodeByte_unitFrame (mk : Byte → Instr) (x : Byte) :
    decodeByte mk (unitFrame c 0 (byteField x) 0) = .ok (mk x) := by
  simp only [decodeByte, unitFrame, noSelect_zero, byteOperand_byteField, noOperand_zero]; rfl

theorem decodeIndex_unitFrame (mk : BitVec 4 → Instr) (i : BitVec 4) :
    decodeIndex mk (unitFrame c (indexField i) 0 0) = .ok (mk i) := by
  simp only [decodeIndex, unitFrame, selectIndex_indexField, noOperand_zero]; rfl

theorem decodeWord_unitFrame (mk : Word → Instr) (w : Word) :
    decodeWord mk (unitFrame c 0 (wordField w) 0) = .ok (mk w) := by
  simp only [decodeWord, unitFrame, noSelect_zero, wordOperand_wordField, noOperand_zero]; rfl

theorem decodeWordIndex_unitFrame (mk : Word → BitVec 4 → Instr) (w : Word) (r : BitVec 4) :
    decodeWordIndex mk (unitFrame c (indexField r) (wordField w) 0) = .ok (mk w r) := by
  simp only [decodeWordIndex, unitFrame, selectIndex_indexField, wordOperand_wordField, noOperand_zero]; rfl

theorem decodeBlockIndex_unitFrame (mk : Block → BitVec 4 → Instr) (k : Block) (r : BitVec 4) :
    decodeBlockIndex mk (unitFrame c (indexField r) k 0) = .ok (mk k r) := by
  simp only [decodeBlockIndex, unitFrame, selectIndex_indexField, noOperand_zero]; rfl

theorem decodeBlock_unitFrame (mk : Block → Instr) (b : Block) :
    decodeBlock mk (unitFrame c 0 b 0) = .ok (mk b) := rfl

theorem decodeBlockBlock_unitFrame (mk : Block → Block → Instr) (b k : Block) :
    decodeBlockBlock mk (unitFrame c 0 b k) = .ok (mk b k) := rfl

theorem decodeRound_unitFrame_zero (mk0 mk1 : Block → Block → Instr) (b k : Block) :
    decodeRound mk0 mk1 (unitFrame c 0 b k) = .ok (mk0 b k) := by
  have h : selectBit 0 = .ok false := by decide
  simp only [decodeRound, unitFrame, h]; rfl

theorem decodeRound_unitFrame_one (mk0 mk1 : Block → Block → Instr) (b k : Block) :
    decodeRound mk0 mk1 (unitFrame c 1 b k) = .ok (mk1 b k) := by
  have h : selectBit 1 = .ok true := by decide
  simp only [decodeRound, unitFrame, h]; rfl

end

/-! ### What a field that was accepted is -/

/-- A value is its upper part over its lower part. -/
theorem append_extract {w k : Nat} (x : BitVec (w + k)) : x.extractLsb' k w ++ x.extractLsb' 0 k = x := by
  apply BitVec.eq_of_getLsbD_eq
  intro n hn
  rw [BitVec.getLsbD_append]
  by_cases h : n < k
  · simp [h]
  · have h1 : n - k < w := by omega
    have h2 : k + (n - k) = n := by omega
    simp [h, h1, h2]

theorem noSelect_ok {sel : BitVec 8} {u : Unit} (h : noSelect sel = .ok u) : sel = 0 := by
  unfold noSelect at h
  split at h
  · assumption
  · cases h

theorem noOperand_ok {v : Block} {u : Unit} (h : noOperand v = .ok u) : v = 0 := by
  unfold noOperand at h
  split at h
  · assumption
  · cases h

theorem byteOperand_ok {v : Block} {x : Byte} (h : byteOperand v = .ok x) : v = byteField x := by
  unfold byteOperand at h
  split at h
  · rename_i e
    cases h
    have e' : v.extractLsb' 8 120 = 0#120 := e
    unfold byteField
    rw [← e']
    exact (append_extract (w := 120) (k := 8) v).symm
  · cases h

theorem wordOperand_ok {v : Block} {w : Word} (h : wordOperand v = .ok w) : v = wordField w := by
  unfold wordOperand at h
  split at h
  · rename_i e
    cases h
    have e' : v.extractLsb' 32 96 = 0#96 := e
    unfold wordField
    rw [← e']
    exact (append_extract (w := 96) (k := 32) v).symm
  · cases h

theorem selectIndex_ok {sel : BitVec 8} {i : BitVec 4} (h : selectIndex sel = .ok i) : sel = indexField i := by
  unfold selectIndex at h
  split at h
  · rename_i e
    cases h
    have e' : sel.extractLsb' 4 4 = 0#4 := e
    unfold indexField
    rw [← e']
    exact (append_extract (w := 4) (k := 4) sel).symm
  · cases h

theorem selectBit_ok {sel : BitVec 8} {b : Bool} (h : selectBit sel = .ok b) : sel = if b then 1 else 0 := by
  unfold selectBit at h
  split at h
  · rename_i e
    cases h
    revert sel
    decide
  · cases h

/-- A step of an `Except` computation that succeeded. -/
theorem bind_ok {ε α β : Type} {x : Except ε α} {f : α → Except ε β} {b : β} (h : x >>= f = .ok b) :
    ∃ a, x = .ok a ∧ f a = .ok b := by
  cases x with
  | error e => cases h
  | ok a => exact ⟨a, rfl, h⟩

/-! ### What a frame of each shape was -/

section
variable {f : Frame} {i : Instr}

theorem decodeByteByte_ok {mk : Byte → Byte → Instr} (h : decodeByteByte mk f = .ok i) :
    ∃ a b, i = mk a b ∧ f.sel = 0 ∧ f.opA = byteField a ∧ f.opB = byteField b := by
  obtain ⟨_, h1, h⟩ := bind_ok h
  obtain ⟨a, h2, h⟩ := bind_ok h
  obtain ⟨b, h3, h⟩ := bind_ok h
  cases h
  exact ⟨a, b, rfl, noSelect_ok h1, byteOperand_ok h2, byteOperand_ok h3⟩

theorem decodeByte_ok {mk : Byte → Instr} (h : decodeByte mk f = .ok i) :
    ∃ x, i = mk x ∧ f.sel = 0 ∧ f.opA = byteField x ∧ f.opB = 0 := by
  obtain ⟨_, h1, h⟩ := bind_ok h
  obtain ⟨x, h2, h⟩ := bind_ok h
  obtain ⟨_, h3, h⟩ := bind_ok h
  cases h
  exact ⟨x, rfl, noSelect_ok h1, byteOperand_ok h2, noOperand_ok h3⟩

theorem decodeIndex_ok {mk : BitVec 4 → Instr} (h : decodeIndex mk f = .ok i) :
    ∃ r, i = mk r ∧ f.sel = indexField r ∧ f.opA = 0 ∧ f.opB = 0 := by
  obtain ⟨r, h1, h⟩ := bind_ok h
  obtain ⟨_, h2, h⟩ := bind_ok h
  obtain ⟨_, h3, h⟩ := bind_ok h
  cases h
  exact ⟨r, rfl, selectIndex_ok h1, noOperand_ok h2, noOperand_ok h3⟩

theorem decodeWord_ok {mk : Word → Instr} (h : decodeWord mk f = .ok i) :
    ∃ w, i = mk w ∧ f.sel = 0 ∧ f.opA = wordField w ∧ f.opB = 0 := by
  obtain ⟨_, h1, h⟩ := bind_ok h
  obtain ⟨w, h2, h⟩ := bind_ok h
  obtain ⟨_, h3, h⟩ := bind_ok h
  cases h
  exact ⟨w, rfl, noSelect_ok h1, wordOperand_ok h2, noOperand_ok h3⟩

theorem decodeWordIndex_ok {mk : Word → BitVec 4 → Instr} (h : decodeWordIndex mk f = .ok i) :
    ∃ w r, i = mk w r ∧ f.sel = indexField r ∧ f.opA = wordField w ∧ f.opB = 0 := by
  obtain ⟨r, h1, h⟩ := bind_ok h
  obtain ⟨w, h2, h⟩ := bind_ok h
  obtain ⟨_, h3, h⟩ := bind_ok h
  cases h
  exact ⟨w, r, rfl, selectIndex_ok h1, wordOperand_ok h2, noOperand_ok h3⟩

theorem decodeBlockIndex_ok {mk : Block → BitVec 4 → Instr} (h : decodeBlockIndex mk f = .ok i) :
    ∃ r, i = mk f.opA r ∧ f.sel = indexField r ∧ f.opB = 0 := by
  obtain ⟨r, h1, h⟩ := bind_ok h
  obtain ⟨_, h2, h⟩ := bind_ok h
  cases h
  exact ⟨r, rfl, selectIndex_ok h1, noOperand_ok h2⟩

theorem decodeBlock_ok {mk : Block → Instr} (h : decodeBlock mk f = .ok i) :
    i = mk f.opA ∧ f.sel = 0 ∧ f.opB = 0 := by
  obtain ⟨_, h1, h⟩ := bind_ok h
  obtain ⟨_, h2, h⟩ := bind_ok h
  cases h
  exact ⟨rfl, noSelect_ok h1, noOperand_ok h2⟩

theorem decodeBlockBlock_ok {mk : Block → Block → Instr} (h : decodeBlockBlock mk f = .ok i) :
    i = mk f.opA f.opB ∧ f.sel = 0 := by
  obtain ⟨_, h1, h⟩ := bind_ok h
  cases h
  exact ⟨rfl, noSelect_ok h1⟩

theorem decodeRound_ok {mk0 mk1 : Block → Block → Instr} (h : decodeRound mk0 mk1 f = .ok i) :
    (i = mk0 f.opA f.opB ∧ f.sel = 0) ∨ (i = mk1 f.opA f.opB ∧ f.sel = 1) := by
  obtain ⟨b, h1, h⟩ := bind_ok h
  have h2 := selectBit_ok h1
  cases b <;> cases h
  · exact .inl ⟨rfl, h2⟩
  · exact .inr ⟨rfl, h2⟩

end

end Sys2Proof
end

