-- ==== Sys2Proof/Laws/State.lean ====
section
/-! SUPPORT. What each named update of the state leaves in each field: one lemma a field, true by unfolding once,
so that no later proof unfolds a record update. -/

namespace Sys2Proof.Machine.State

variable (s : State)

/-! ### setRoundKey -/

@[simp] theorem setRoundKey_phase (i : RoundIndex) (v : Block) :
    (s.setRoundKey i v).phase = s.phase := rfl
@[simp] theorem setRoundKey_ctr (i : RoundIndex) (v : Block) :
    (s.setRoundKey i v).ctr = s.ctr := rfl
@[simp] theorem setRoundKey_opReg (i : RoundIndex) (v : Block) :
    (s.setRoundKey i v).opReg = s.opReg := rfl
@[simp] theorem setRoundKey_stateReg (i : RoundIndex) (v : Block) :
    (s.setRoundKey i v).stateReg = s.stateReg := rfl
@[simp] theorem setRoundKey_rk (i : RoundIndex) (v : Block) :
    (s.setRoundKey i v).rk = s.rk.set i.val v := rfl
@[simp] theorem setRoundKey_rkIdx (i : RoundIndex) (v : Block) :
    (s.setRoundKey i v).rkIdx = s.rkIdx := rfl
@[simp] theorem setRoundKey_host (i : RoundIndex) (v : Block) :
    (s.setRoundKey i v).host = s.host := rfl
@[simp] theorem setRoundKey_sampled (i : RoundIndex) (v : Block) :
    (s.setRoundKey i v).sampled = s.sampled := rfl
@[simp] theorem setRoundKey_changes (i : RoundIndex) (v : Block) :
    (s.setRoundKey i v).changes = s.changes := rfl

/-! ### sample -/

@[simp] theorem sample_phase (v : Sample) :
    (s.sample v).phase = s.phase := rfl
@[simp] theorem sample_ctr (v : Sample) :
    (s.sample v).ctr = s.ctr := rfl
@[simp] theorem sample_opReg (v : Sample) :
    (s.sample v).opReg = s.opReg := rfl
@[simp] theorem sample_stateReg (v : Sample) :
    (s.sample v).stateReg = s.stateReg := rfl
@[simp] theorem sample_rk (v : Sample) :
    (s.sample v).rk = s.rk := rfl
@[simp] theorem sample_rkIdx (v : Sample) :
    (s.sample v).rkIdx = s.rkIdx := rfl
@[simp] theorem sample_host (v : Sample) :
    (s.sample v).host = s.host := rfl
@[simp] theorem sample_sampled (v : Sample) :
    (s.sample v).sampled = v := rfl
@[simp] theorem sample_changes (v : Sample) :
    (s.sample v).changes = s.changes := rfl

/-! ### driveRkIdx -/

@[simp] theorem driveRkIdx_phase (i : BitVec 4) :
    (s.driveRkIdx i).phase = s.phase := rfl
@[simp] theorem driveRkIdx_ctr (i : BitVec 4) :
    (s.driveRkIdx i).ctr = s.ctr := rfl
@[simp] theorem driveRkIdx_opReg (i : BitVec 4) :
    (s.driveRkIdx i).opReg = s.opReg := rfl
@[simp] theorem driveRkIdx_stateReg (i : BitVec 4) :
    (s.driveRkIdx i).stateReg = s.stateReg := rfl
@[simp] theorem driveRkIdx_rk (i : BitVec 4) :
    (s.driveRkIdx i).rk = s.rk := rfl
@[simp] theorem driveRkIdx_rkIdx (i : BitVec 4) :
    (s.driveRkIdx i).rkIdx = i := rfl
@[simp] theorem driveRkIdx_host (i : BitVec 4) :
    (s.driveRkIdx i).host = s.host := rfl
@[simp] theorem driveRkIdx_sampled (i : BitVec 4) :
    (s.driveRkIdx i).sampled = s.sampled := rfl
@[simp] theorem driveRkIdx_changes (i : BitVec 4) :
    (s.driveRkIdx i).changes = s.changes := rfl

/-! ### countChange -/

@[simp] theorem countChange_phase (i : BitVec 4) :
    (s.countChange i).phase = s.phase := rfl
@[simp] theorem countChange_ctr (i : BitVec 4) :
    (s.countChange i).ctr = s.ctr := rfl
@[simp] theorem countChange_opReg (i : BitVec 4) :
    (s.countChange i).opReg = s.opReg := rfl
@[simp] theorem countChange_stateReg (i : BitVec 4) :
    (s.countChange i).stateReg = s.stateReg := rfl
@[simp] theorem countChange_rk (i : BitVec 4) :
    (s.countChange i).rk = s.rk := rfl
@[simp] theorem countChange_rkIdx (i : BitVec 4) :
    (s.countChange i).rkIdx = i := rfl
@[simp] theorem countChange_host (i : BitVec 4) :
    (s.countChange i).host = s.host := rfl
@[simp] theorem countChange_sampled (i : BitVec 4) :
    (s.countChange i).sampled = s.sampled := rfl
@[simp] theorem countChange_changes (i : BitVec 4) :
    (s.countChange i).changes = s.changes + 1 := rfl

/-! ### countReset -/

@[simp] theorem countReset_phase (i : BitVec 4) :
    (s.countReset i).phase = s.phase := by unfold countReset; split <;> rfl
@[simp] theorem countReset_ctr (i : BitVec 4) :
    (s.countReset i).ctr = s.ctr := by unfold countReset; split <;> rfl
@[simp] theorem countReset_opReg (i : BitVec 4) :
    (s.countReset i).opReg = s.opReg := by unfold countReset; split <;> rfl
@[simp] theorem countReset_stateReg (i : BitVec 4) :
    (s.countReset i).stateReg = s.stateReg := by unfold countReset; split <;> rfl
@[simp] theorem countReset_rk (i : BitVec 4) :
    (s.countReset i).rk = s.rk := by unfold countReset; split <;> rfl
@[simp] theorem countReset_host (i : BitVec 4) :
    (s.countReset i).host = s.host := by unfold countReset; split <;> rfl
@[simp] theorem countReset_sampled (i : BitVec 4) :
    (s.countReset i).sampled = s.sampled := by unfold countReset; split <;> rfl
@[simp] theorem countReset_rkIdx (i : BitVec 4) :
    (s.countReset i).rkIdx = i := by unfold countReset; split <;> rfl
@[simp] theorem countReset_changes (i : BitVec 4) :
    (s.countReset i).changes = if s.phase = .idle then s.changes else s.changes + 1 := by
  unfold countReset; split <;> rfl

/-! ### resetEdge -/

@[simp] theorem resetEdge_phase :
    s.resetEdge.phase = .idle := rfl
@[simp] theorem resetEdge_ctr :
    s.resetEdge.ctr = 0 := rfl
@[simp] theorem resetEdge_opReg :
    s.resetEdge.opReg = .encrypt := rfl
@[simp] theorem resetEdge_stateReg :
    s.resetEdge.stateReg = Config.freeStateReg s.changes := rfl
@[simp] theorem resetEdge_rk :
    s.resetEdge.rk = Vector.ofFn (Config.freeRoundKey s.changes) := rfl
@[simp] theorem resetEdge_rkIdx :
    s.resetEdge.rkIdx = s.rkIdx := rfl
@[simp] theorem resetEdge_host :
    s.resetEdge.host = s.host := rfl
@[simp] theorem resetEdge_sampled :
    s.resetEdge.sampled = s.sampled := rfl
@[simp] theorem resetEdge_changes :
    s.resetEdge.changes = s.changes := rfl

/-! ### accept -/

@[simp] theorem accept_phase (op : Op) (k b : Block) :
    (s.accept op k b).phase = .expand := rfl
@[simp] theorem accept_ctr (op : Op) (k b : Block) :
    (s.accept op k b).ctr = 1 := rfl
@[simp] theorem accept_opReg (op : Op) (k b : Block) :
    (s.accept op k b).opReg = op := rfl
@[simp] theorem accept_stateReg (op : Op) (k b : Block) :
    (s.accept op k b).stateReg = b := rfl
@[simp] theorem accept_rk (op : Op) (k b : Block) :
    (s.accept op k b).rk = s.rk.set 0 k := rfl
@[simp] theorem accept_rkIdx (op : Op) (k b : Block) :
    (s.accept op k b).rkIdx = s.rkIdx := rfl
@[simp] theorem accept_host (op : Op) (k b : Block) :
    (s.accept op k b).host = s.host := rfl
@[simp] theorem accept_sampled (op : Op) (k b : Block) :
    (s.accept op k b).sampled = s.sampled := rfl
@[simp] theorem accept_changes (op : Op) (k b : Block) :
    (s.accept op k b).changes = s.changes := rfl

/-! ### dropItem -/

@[simp] theorem dropItem_phase (rest : List HostItem) :
    (s.dropItem rest).phase = s.phase := rfl
@[simp] theorem dropItem_ctr (rest : List HostItem) :
    (s.dropItem rest).ctr = s.ctr := rfl
@[simp] theorem dropItem_opReg (rest : List HostItem) :
    (s.dropItem rest).opReg = s.opReg := rfl
@[simp] theorem dropItem_stateReg (rest : List HostItem) :
    (s.dropItem rest).stateReg = s.stateReg := rfl
@[simp] theorem dropItem_rk (rest : List HostItem) :
    (s.dropItem rest).rk = s.rk := rfl
@[simp] theorem dropItem_rkIdx (rest : List HostItem) :
    (s.dropItem rest).rkIdx = s.rkIdx := rfl
@[simp] theorem dropItem_host (rest : List HostItem) :
    (s.dropItem rest).host = rest := rfl
@[simp] theorem dropItem_sampled (rest : List HostItem) :
    (s.dropItem rest).sampled = s.sampled := rfl
@[simp] theorem dropItem_changes (rest : List HostItem) :
    (s.dropItem rest).changes = s.changes := rfl

/-! ### The items of a line (30_encoding.md R79) -/

section
variable (k b : Block) (i : BitVec 4)

@[simp] theorem items_reset : HostLine.reset.items = [.ofInstr (.reset false .encrypt 0)] := rfl
@[simp] theorem items_enc : (HostLine.enc k b).items = [.ofInstr (.encrypt 0 k b)] := rfl
@[simp] theorem items_dec : (HostLine.dec k b).items = [.ofInstr (.decrypt 0 k b)] := rfl
@[simp] theorem items_nop (n : Nat) : (HostLine.nop n).items = List.replicate n (.ofInstr (.nop .encrypt 0)) :=
  List.append_nil _
@[simp] theorem items_read : HostLine.read.items = [.read] := rfl
@[simp] theorem items_rkRead : (HostLine.rkRead i).items = [.ofInstr (.rkRead i)] := rfl
@[simp] theorem items_wait : HostLine.wait.items = [.wait] := rfl
@[simp] theorem items_encw : (HostLine.encw k b).items = [.ofInstr (.encrypt 0 k b), .wait, .read] := rfl
@[simp] theorem items_decw : (HostLine.decw k b).items = [.ofInstr (.decrypt 0 k b), .wait, .read] := rfl

end

/-! ### Items waiting -/

@[simp] theorem loadProgram_phase (p : List HostLine) :
    (s.loadProgram p).phase = s.phase := rfl
@[simp] theorem loadProgram_ctr (p : List HostLine) :
    (s.loadProgram p).ctr = s.ctr := rfl
@[simp] theorem loadProgram_opReg (p : List HostLine) :
    (s.loadProgram p).opReg = s.opReg := rfl
@[simp] theorem loadProgram_stateReg (p : List HostLine) :
    (s.loadProgram p).stateReg = s.stateReg := rfl
@[simp] theorem loadProgram_rk (p : List HostLine) :
    (s.loadProgram p).rk = s.rk := rfl
@[simp] theorem loadProgram_rkIdx (p : List HostLine) :
    (s.loadProgram p).rkIdx = s.rkIdx := rfl
@[simp] theorem loadProgram_host (p : List HostLine) :
    (s.loadProgram p).host = s.host ++ p.flatMap HostLine.items := rfl
@[simp] theorem loadProgram_sampled (p : List HostLine) :
    (s.loadProgram p).sampled = s.sampled := rfl
@[simp] theorem loadProgram_changes (p : List HostLine) :
    (s.loadProgram p).changes = s.changes := rfl
@[simp] theorem withFetchWord_phase (nbits w : Nat) :
    (s.withFetchWord nbits w).phase = s.phase := rfl
@[simp] theorem withFetchWord_ctr (nbits w : Nat) :
    (s.withFetchWord nbits w).ctr = s.ctr := rfl
@[simp] theorem withFetchWord_opReg (nbits w : Nat) :
    (s.withFetchWord nbits w).opReg = s.opReg := rfl
@[simp] theorem withFetchWord_stateReg (nbits w : Nat) :
    (s.withFetchWord nbits w).stateReg = s.stateReg := rfl
@[simp] theorem withFetchWord_rk (nbits w : Nat) :
    (s.withFetchWord nbits w).rk = s.rk := rfl
@[simp] theorem withFetchWord_rkIdx (nbits w : Nat) :
    (s.withFetchWord nbits w).rkIdx = s.rkIdx := rfl
@[simp] theorem withFetchWord_host (nbits w : Nat) :
    (s.withFetchWord nbits w).host = .access (Frame.ofTableWord nbits w) :: s.host := rfl
@[simp] theorem withFetchWord_sampled (nbits w : Nat) :
    (s.withFetchWord nbits w).sampled = s.sampled := rfl
@[simp] theorem withFetchWord_changes (nbits w : Nat) :
    (s.withFetchWord nbits w).changes = s.changes := rfl

/-! ### One round key -/

/-- Entry 0 of a schedule just written at 0. -/
@[simp] theorem schedule_set_zero_get_zero (v : Schedule) (k : Block) : (v.set 0 k).get 0 = k := by
  simp [Vector.get_eq_getElem]

/-- The entry just written. -/
@[simp] theorem setRoundKey_get_self (i : RoundIndex) (v : Block) : (s.setRoundKey i v).rk.get i = v := by
  simp [Vector.get_eq_getElem]

/-- Every other entry is as before. -/
theorem setRoundKey_get_ne {i j : RoundIndex} (v : Block) (h : i ≠ j) :
    (s.setRoundKey i v).rk.get j = s.rk.get j := by
  have : i.val ≠ j.val := fun e => h (Fin.ext e)
  simp [Vector.get_eq_getElem, Vector.getElem_set_ne, this]

/-- An accepting edge writes `RK[0]`. -/
@[simp] theorem accept_get_zero (op : Op) (k b : Block) : (s.accept op k b).rk.get 0 = k := by
  simp [Vector.get_eq_getElem]

/-- An accepting edge writes no other round key (44_cipher.md R181). -/
theorem accept_get_ne {j : RoundIndex} (op : Op) (k b : Block) (h : j ≠ 0) :
    (s.accept op k b).rk.get j = s.rk.get j := by
  have : 0 ≠ j.val := fun e => h (Fin.ext e.symm)
  simp [Vector.get_eq_getElem, Vector.getElem_set_ne, this]

end Sys2Proof.Machine.State
end

