-- ==== Sys2Proof/Laws/Ops.lean ====
section
/-! SUPPORT. What each shared operation can do, said once: the outputs by phase, one equation for each case of
a clock edge (44_cipher.md R180), and the inversion of an edge that gives a next state. -/

namespace Sys2Proof.Machine

/-! ### Outputs by phase (10_state.md R27) -/

theorem busy_eq_false_iff (s : State) : busy s = false ↔ s.phase = .idle ∨ s.phase = .done := by
  cases h : s.phase <;> simp [busy, h]

theorem busy_eq_true_iff (s : State) : busy s = true ↔ s.phase = .expand ∨ s.phase = .cipher := by
  cases h : s.phase <;> simp [busy, h]

theorem done_eq_true_iff (s : State) : done s = true ↔ s.phase = .done := by
  cases h : s.phase <;> simp [done, h]

theorem rkValid_eq_true_iff (s : State) : rkValid s = true ↔ s.phase = .cipher ∨ s.phase = .done := by
  cases h : s.phase <;> simp [rkValid, h]

/-! ### One key step (42_key_schedule.md R130) -/

/-- The round key the step writes. -/
def nextRoundKey (s : State) : Block := keyStep (s.rk.get (prevRound s.ctr)) (roundBits s.ctr)

theorem expandStep_zero {s : State} (h : s.ctr = 0) : s.expandStep = .fault .expandIndexZero := by
  simp [State.expandStep, h]

theorem expandStep_lt {s : State} (h0 : s.ctr ≠ 0) (h : s.ctr.val < 10) :
    s.expandStep = .next { s.setRoundKey s.ctr (nextRoundKey s) with ctr := nextRound s.ctr h } := by
  simp [State.expandStep, nextRoundKey, h0, h]

theorem expandStep_last {s : State} (h : s.ctr = 10) :
    s.expandStep =
      .next { s.setRoundKey 10 (nextRoundKey s) with phase := .cipher, ctr := firstCipherCtr s.opReg } := by
  simp [State.expandStep, nextRoundKey, h]

/-- A key step that gives a next state started with `ctr` at least 1. -/
theorem expandStep_next {s t : State} (h : s.expandStep = .next t) :
    (∃ h' : s.ctr.val < 10, s.ctr ≠ 0 ∧
      t = { s.setRoundKey s.ctr (nextRoundKey s) with ctr := nextRound s.ctr h' }) ∨
    (s.ctr = 10 ∧
      t = { s.setRoundKey 10 (nextRoundKey s) with phase := .cipher, ctr := firstCipherCtr s.opReg }) := by
  by_cases h0 : s.ctr = 0
  · simp [expandStep_zero h0] at h
  by_cases h1 : s.ctr.val < 10
  · rw [expandStep_lt h0 h1] at h
    cases h
    exact .inl ⟨h1, h0, rfl⟩
  · have h2 : s.ctr = 10 := Fin.ext (by have := s.ctr.isLt; simp; omega)
    rw [expandStep_last h2] at h
    cases h
    exact .inr ⟨h2, rfl⟩

/-! ### One cipher step (44_cipher.md R184, R185) -/

theorem encryptStep_zero {s : State} (h : s.ctr = 0) :
    s.encryptStep = { s with stateReg := addRoundKey s.stateReg (s.rk.get 0), ctr := 1 } := by
  simp [State.encryptStep, rkSel, h]

theorem encryptStep_mid {s : State} (h0 : s.ctr ≠ 0) (h : s.ctr.val < 10) :
    s.encryptStep =
      { s with stateReg := aesEncRound s.stateReg (s.rk.get s.ctr) false, ctr := nextRound s.ctr h } := by
  simp [State.encryptStep, rkSel, h0, h]

theorem encryptStep_last {s : State} (h : s.ctr = 10) :
    s.encryptStep = { s with stateReg := aesEncRound s.stateReg (s.rk.get 10) true, phase := .done } := by
  simp [State.encryptStep, rkSel, h]

theorem decryptStep_first {s : State} (h : s.ctr = 10) :
    s.decryptStep = { s with stateReg := aesDecRound s.stateReg (s.rk.get 10) true, ctr := 9 } := by
  simp [State.decryptStep, rkSel, h]

theorem decryptStep_mid {s : State} (h : s.ctr ≠ 10) (h0 : 1 ≤ s.ctr.val) :
    s.decryptStep =
      { s with stateReg := aesDecRound s.stateReg (s.rk.get s.ctr) false, ctr := prevRound s.ctr } := by
  simp [State.decryptStep, rkSel, h, h0]

theorem decryptStep_last {s : State} (h : s.ctr = 0) :
    s.decryptStep = { s with stateReg := addRoundKey s.stateReg (s.rk.get 0), phase := .done } := by
  simp [State.decryptStep, rkSel, h]

/-- A cipher step keeps every register but `state_reg`, `ctr` and `phase`. -/
theorem encryptStep_frame (s : State) :
    s.encryptStep.opReg = s.opReg ∧ s.encryptStep.rk = s.rk ∧ s.encryptStep.rkIdx = s.rkIdx ∧
      s.encryptStep.host = s.host ∧ s.encryptStep.sampled = s.sampled ∧
      s.encryptStep.changes = s.changes := by
  unfold State.encryptStep
  split
  · simp
  · split <;> simp

theorem decryptStep_frame (s : State) :
    s.decryptStep.opReg = s.opReg ∧ s.decryptStep.rk = s.rk ∧ s.decryptStep.rkIdx = s.rkIdx ∧
      s.decryptStep.host = s.host ∧ s.decryptStep.sampled = s.sampled ∧
      s.decryptStep.changes = s.changes := by
  unfold State.decryptStep
  split
  · simp
  · split <;> simp

/-! ### One clock edge (44_cipher.md R180) -/

section
variable {e : EdgeInputs} {s : State}

theorem clockEdge_reset (h : e.rst = true) : clockEdge e s = .next (s.countReset e.rkIdx).resetEdge := by
  simp [clockEdge, h]

theorem clockEdge_accept (hr : e.rst = false) (hb : busy s = false) (hs : e.start = true) :
    clockEdge e s = .next ((s.countChange e.rkIdx).accept e.op e.keyIn e.blockIn) := by
  rcases (busy_eq_false_iff s).1 hb with h | h <;> simp [clockEdge, hr, hs, h]

theorem clockEdge_hold (hr : e.rst = false) (hb : busy s = false) (hs : e.start = false) :
    clockEdge e s = .next (s.driveRkIdx e.rkIdx) := by
  rcases (busy_eq_false_iff s).1 hb with h | h <;> simp [clockEdge, hr, hs, h]

theorem clockEdge_expand (hr : e.rst = false) (hp : s.phase = .expand) :
    clockEdge e s = (s.countChange e.rkIdx).expandStep := by
  simp [clockEdge, hr, hp]

theorem clockEdge_encrypt (hr : e.rst = false) (hp : s.phase = .cipher) (ho : s.opReg = .encrypt) :
    clockEdge e s = .next (s.countChange e.rkIdx).encryptStep := by
  simp [clockEdge, hr, hp, ho]

theorem clockEdge_decrypt (hr : e.rst = false) (hp : s.phase = .cipher) (ho : s.opReg = .decrypt) :
    clockEdge e s = .next (s.countChange e.rkIdx).decryptStep := by
  simp [clockEdge, hr, hp, ho]

/-- Everything an edge that gives a next state can have done: the six cases of 44_cipher.md R180. -/
theorem clockEdge_next {t : State} (h : clockEdge e s = .next t) :
    (e.rst = true ∧ t = (s.countReset e.rkIdx).resetEdge) ∨
    (e.rst = false ∧ busy s = false ∧ e.start = true ∧
      t = (s.countChange e.rkIdx).accept e.op e.keyIn e.blockIn) ∨
    (e.rst = false ∧ busy s = false ∧ e.start = false ∧ t = s.driveRkIdx e.rkIdx) ∨
    (e.rst = false ∧ s.phase = .expand ∧ (s.countChange e.rkIdx).expandStep = .next t) ∨
    (e.rst = false ∧ s.phase = .cipher ∧ s.opReg = .encrypt ∧ t = (s.countChange e.rkIdx).encryptStep) ∨
    (e.rst = false ∧ s.phase = .cipher ∧ s.opReg = .decrypt ∧ t = (s.countChange e.rkIdx).decryptStep) := by
  cases hr : e.rst with
  | true => rw [clockEdge_reset hr] at h; cases h; exact .inl ⟨rfl, rfl⟩
  | false =>
    cases hb : busy s with
    | false =>
      cases hs : e.start with
      | true => rw [clockEdge_accept hr hb hs] at h; cases h; simp
      | false => rw [clockEdge_hold hr hb hs] at h; cases h; simp
    | true =>
      rcases (busy_eq_true_iff s).1 hb with hp | hp
      · rw [clockEdge_expand hr hp] at h; simp [hp, h]
      · cases ho : s.opReg with
        | encrypt => rw [clockEdge_encrypt hr hp ho] at h; cases h; simp [hp]
        | decrypt => rw [clockEdge_decrypt hr hp ho] at h; cases h; simp [hp]

end

end Sys2Proof.Machine
end

