-- ==== Sys2Proof/Laws/Exec.lean ====
section
/-! SUPPORT. What one access can do: an edge with its inputs, or a sample that touches no register; the
step by the queue's first item; a run of accesses. -/

namespace Sys2Proof

/-- The input ports at the edge an access takes, if it takes one (30_encoding.md R79). -/
def Instr.edgeInputs : Instr → Option Machine.EdgeInputs
  | .reset start op i => some ⟨true, start, op, 0, 0, i⟩
  | .encrypt i k b => some ⟨false, true, .encrypt, k, b, i⟩
  | .decrypt i k b => some ⟨false, true, .decrypt, k, b, i⟩
  | .nop op i => some ⟨false, false, op, 0, 0, i⟩
  | _ => none

end Sys2Proof

namespace Sys2Proof.Machine

/-- An access with an edge is that edge. -/
theorem exec_of_edgeInputs {i : Instr} {e : EdgeInputs} (h : i.edgeInputs = some e) (s : State) :
    exec i s = clockEdge e s := by
  cases i <;> simp [Instr.edgeInputs] at h <;> subst h <;> rfl

/-- An access without an edge drives at most `rk_idx` and samples one value (20_memory.md R57). -/
theorem exec_of_noEdge {i : Instr} (h : i.edgeInputs = none) (s : State) :
    ∃ idx v, exec i s = .next ((s.driveRkIdx idx).sample v) := by
  cases i <;> simp [Instr.edgeInputs] at h
  case rkRead idx => exact ⟨idx, _, rfl⟩
  all_goals exact ⟨s.rkIdx, _, rfl⟩

/-- An edge that is no reset. -/
theorem edgeInputs_of_isRunEdge {i : Instr} (h : i.isRunEdge = true) :
    ∃ e, i.edgeInputs = some e ∧ e.rst = false := by
  cases i <;> simp [Instr.isRunEdge] at h <;> exact ⟨_, rfl, rfl⟩

/-- While `busy`, every edge that is no reset does the same but for `rk_idx` (44_cipher.md R183). -/
theorem clockEdge_busy {e : EdgeInputs} {s : State} (hr : e.rst = false) (hb : busy s = true) (op : Op) :
    clockEdge e s = exec (.nop op e.rkIdx) s := by
  rw [exec_of_edgeInputs rfl]
  rcases (busy_eq_true_iff s).1 hb with hp | hp
  · rw [clockEdge_expand hr hp, clockEdge_expand rfl hp]
  · cases ho : s.opReg with
    | encrypt => rw [clockEdge_encrypt hr hp ho, clockEdge_encrypt rfl hp ho]
    | decrypt => rw [clockEdge_decrypt hr hp ho, clockEdge_decrypt rfl hp ho]

/-- The accesses after the first run from where it left the machine. -/
theorem execAll_cons_next {i : Instr} {is : List Instr} {s t : State} (h : exec i s = .next t) :
    execAll (i :: is) s = execAll is t := by
  simp [execAll, h]

/-- A run of two parts is the second part from where the first left the machine. -/
theorem execAll_append {is js : List Instr} {s t : State} (h : execAll is s = .next t) :
    execAll (is ++ js) s = execAll js t := by
  induction is generalizing s with
  | nil => cases h; rfl
  | cons i is ih =>
    simp only [execAll] at h
    cases hi : exec i s with
    | next u => rw [hi] at h; simpa [execAll, hi] using ih h
    | fault r => simp [hi] at h
    | refused r => simp [hi] at h

/-! ### The step by the queue's first item -/

/-- With nothing waiting: a NOP edge. -/
theorem step_of_empty {s : State} (h : s.host = []) : step s = exec (.nop .encrypt s.rkIdx) s := by
  simp [step, hostStep, idleAccess, h]

/-- An access. -/
theorem step_of_access {s : State} {f : Frame} {rest : List HostItem} (h : s.host = .access f :: rest) :
    step s = match decode f with
      | .ok i => exec i (s.dropItem rest)
      | .error e => .refused (.undecodable e) := by
  simp only [step, hostStep, h]
  rfl

/-- READ. -/
theorem step_of_read {s : State} {rest : List HostItem} (h : s.host = .read :: rest) :
    step s = .next { s with host := rest, sampled := .outputs (hostRead s) } := by
  simp only [step, hostStep, h]
  rfl

/-- WAIT. -/
theorem step_of_wait {s : State} {rest : List HostItem} (h : s.host = .wait :: rest) :
    step s = waitStep rest s := by
  simp only [step, hostStep, h]

/-- A turn of WAIT whose edge gives a next state. -/
theorem waitStep_next {s t : State} {rest : List HostItem} (h : exec waitAccess s = .next t) :
    waitStep rest s = .next (if done t then t.dropItem rest else t) := by
  simp [waitStep, h]

/-- Everything a step that gives a next state can have done. -/
theorem step_next {s t : State} (h : step s = .next t) :
    (s.host = [] ∧ exec (.nop .encrypt s.rkIdx) s = .next t) ∨
    (∃ f i rest, s.host = .access f :: rest ∧ decode f = .ok i ∧ exec i (s.dropItem rest) = .next t) ∨
    (∃ rest, s.host = .read :: rest ∧ t = { s with host := rest, sampled := .outputs (hostRead s) }) ∨
    (∃ rest u, s.host = .wait :: rest ∧ exec waitAccess s = .next u ∧
      t = if done u then u.dropItem rest else u) := by
  match hq : s.host with
  | [] => rw [step_of_empty hq] at h; exact .inl ⟨rfl, h⟩
  | .access f :: rest =>
    rw [step_of_access hq] at h
    cases hd : decode f with
    | error e => simp [hd] at h
    | ok i => rw [hd] at h; exact .inr (.inl ⟨f, i, rest, rfl, hd, h⟩)
  | .read :: rest => rw [step_of_read hq] at h; cases h; exact .inr (.inr (.inl ⟨rest, rfl, rfl⟩))
  | .wait :: rest =>
    rw [step_of_wait hq] at h
    cases hx : exec waitAccess s with
    | next u => rw [waitStep_next hx] at h; cases h; exact .inr (.inr (.inr ⟨rest, u, rfl, rfl, rfl⟩))
    | fault r => simp [waitStep, hx] at h
    | refused r => simp [waitStep, hx] at h

end Sys2Proof.Machine
end

