-- ==== Sys2Proof/Laws/Field.lean ====
section
/-! SUPPORT. The two loops of the multiplier are linear over exclusive-or (40_gf28.md R102, R103). -/

namespace Sys2Proof.Machine

/-- A conditional exclusive-or splits over its condition. -/
theorem ite_xor_eq {w : Nat} (p : Bool) (acc x : BitVec w) :
    (if p then acc ^^^ x else acc) = acc ^^^ (if p then x else 0) := by
  cases p <;> simp

/-- A term chosen by an exclusive-or of bits is the exclusive-or of the terms chosen by each. -/
theorem ite_xor_bit {w : Nat} (p q : Bool) (x : BitVec w) :
    (if p ^^ q then x else 0) = (if p then x else 0) ^^^ (if q then x else 0) := by
  cases p <;> cases q <;> simp

/-- A chosen exclusive-or is the exclusive-or of the chosen terms. -/
theorem ite_xor_term {w : Nat} (p : Bool) (x y : BitVec w) :
    (if p then x ^^^ y else 0) = (if p then x else 0) ^^^ (if p then y else 0) := by
  cases p <;> simp

/-- Widening distributes over exclusive-or. -/
theorem setWidth_xor_15 (a b : Byte) : (a ^^^ b).setWidth 15 = a.setWidth 15 ^^^ b.setWidth 15 := by
  simp

/-- The polynomial product distributes over exclusive-or on the right. -/
theorem polyProduct_xor_right (a b c : Byte) :
    polyProduct a (b ^^^ c) = polyProduct a b ^^^ polyProduct a c := by
  simp only [polyProduct, List.foldl, ite_xor_eq, BitVec.getLsbD_xor, ite_xor_bit]
  ac_nf

/-- The polynomial product distributes over exclusive-or on the left. -/
theorem polyProduct_xor_left (a b c : Byte) :
    polyProduct (a ^^^ b) c = polyProduct a c ^^^ polyProduct b c := by
  simp only [polyProduct, List.foldl, ite_xor_eq, setWidth_xor_15, BitVec.shiftLeft_xor_distrib, ite_xor_term]
  ac_nf

/-- One reduction step is linear. -/
theorem polyReduce_step_xor (x y r : BitVec 15) (p : Nat) :
    (if (x ^^^ y).getLsbD p then (x ^^^ y) ^^^ r else x ^^^ y) =
      (if x.getLsbD p then x ^^^ r else x) ^^^ (if y.getLsbD p then y ^^^ r else y) := by
  simp only [ite_xor_eq, BitVec.getLsbD_xor, ite_xor_bit]
  ac_rfl

/-- The reduction is linear. -/
theorem polyReduce_xor (x y : BitVec 15) : polyReduce (x ^^^ y) = polyReduce x ^^^ polyReduce y := by
  simp only [polyReduce, List.foldl, polyReduce_step_xor]

/-- The field product is linear in its right operand. -/
theorem gf28Mult_xor_right (a b c : Byte) : gf28Mult a (b ^^^ c) = gf28Mult a b ^^^ gf28Mult a c := by
  simp only [gf28Mult, polyProduct_xor_right, polyReduce_xor, BitVec.extractLsb'_xor]

/-- The field product is linear in its left operand. -/
theorem gf28Mult_xor_left (a b c : Byte) : gf28Mult (a ^^^ b) c = gf28Mult a c ^^^ gf28Mult b c := by
  simp only [gf28Mult, polyProduct_xor_left, polyReduce_xor, BitVec.extractLsb'_xor]

/-- A Byte is the exclusive-or of the powers of x it has: the eight single bits. -/
theorem byte_eq_bits (b : Byte) :
    b = (if b.getLsbD 0 then 1 else 0) ^^^ (if b.getLsbD 1 then 2 else 0) ^^^ (if b.getLsbD 2 then 4 else 0) ^^^
      (if b.getLsbD 3 then 8 else 0) ^^^ (if b.getLsbD 4 then 16 else 0) ^^^ (if b.getLsbD 5 then 32 else 0) ^^^
      (if b.getLsbD 6 then 64 else 0) ^^^ (if b.getLsbD 7 then 128 else 0) := by
  revert b
  decide +kernel

/-- Two maps that are linear over exclusive-or and agree on the eight powers of x agree on every Byte. -/
theorem linear_ext {f g : Byte → Byte} (hf : ∀ x y, f (x ^^^ y) = f x ^^^ f y)
    (hg : ∀ x y, g (x ^^^ y) = g x ^^^ g y)
    (h : ∀ x ∈ ([1, 2, 4, 8, 16, 32, 64, 128] : List Byte), f x = g x) (b : Byte) : f b = g b := by
  have f0 : f 0 = 0 := by simpa using hf 0 0
  have g0 : g 0 = 0 := by simpa using hg 0 0
  have hp : ∀ (p : Bool), ∀ x ∈ ([1, 2, 4, 8, 16, 32, 64, 128] : List Byte),
      f (if p then x else 0) = g (if p then x else 0) := by
    intro p x hx
    cases p
    · exact f0.trans g0.symm
    · exact h x hx
  rw [byte_eq_bits b]
  simp only [hf, hg]
  congr 1
  · congr 1
    · congr 1
      · congr 1
        · congr 1
          · congr 1
            · congr 1
              · exact hp _ 1 (by simp)
              · exact hp _ 2 (by simp)
            · exact hp _ 4 (by simp)
          · exact hp _ 8 (by simp)
        · exact hp _ 16 (by simp)
      · exact hp _ 32 (by simp)
    · exact hp _ 64 (by simp)
  · exact hp _ 128 (by simp)

end Sys2Proof.Machine
end

