-- ==== Sys2Proof/Laws/PerInstr.lean ====
section
/-! SUPPORT. Families of facts about an operation as an operation: one lemma a constructor. -/

namespace Sys2Proof.Laws.FrameRoundTrip

/-- The frame of the operation decodes to it, whatever its operands: no bit of an operand is dropped. -/
def Statement (i : Instr) : Prop := decode (encode i) = .ok i

/-- An edge of the core: its control word is read field by field (30_encoding.md R72, R73). -/
theorem edge (rst start : Bool) (op : Op) (i : BitVec 4) (k b : Block) :
    decode (edgeFrame (controlWord rst start op i) k b) =
      .ok (if rst then .reset start op i
        else if start then (match op with
          | .encrypt => .encrypt i k b
          | .decrypt => .decrypt i k b)
        else .nop op i) := by
  have h := decode_edgeFrame (controlWord rst start op i) k b
  unfold decodeControlWord at h
  rw [controlWord_rst, controlWord_start, controlWord_op, controlWord_rkIdx, Op.ofBool_toBool] at h
  exact h.trans (by cases op <;> rfl)

theorem reset (start : Bool) (op : Op) (rkIdx : BitVec 4) : Statement (.reset start op rkIdx) := edge true start op rkIdx 0 0
theorem encrypt (rkIdx : BitVec 4) (keyIn blockIn : Block) : Statement (.encrypt rkIdx keyIn blockIn) := edge false true .encrypt rkIdx keyIn blockIn
theorem decrypt (rkIdx : BitVec 4) (keyIn blockIn : Block) : Statement (.decrypt rkIdx keyIn blockIn) := edge false true .decrypt rkIdx keyIn blockIn
theorem nop (op : Op) (rkIdx : BitVec 4) : Statement (.nop op rkIdx) := edge false false op rkIdx 0 0
theorem rkRead (rkIdx : BitVec 4) : Statement (.rkRead rkIdx) := by
  unfold Statement encode
  rw [decode_unitFrame]
  simp only [decodeUnit, unitFrame_code]
  exact decodeIndex_unitFrame _ _ _
theorem gf28Add (a b : Byte) : Statement (.gf28Add a b) := by
  unfold Statement encode
  rw [decode_unitFrame]
  simp only [decodeUnit, unitFrame_code]
  exact decodeByteByte_unitFrame _ _ _ _
theorem gf28Sub (a b : Byte) : Statement (.gf28Sub a b) := by
  unfold Statement encode
  rw [decode_unitFrame]
  simp only [decodeUnit, unitFrame_code]
  exact decodeByteByte_unitFrame _ _ _ _
theorem gf28Mult (a b : Byte) : Statement (.gf28Mult a b) := by
  unfold Statement encode
  rw [decode_unitFrame]
  simp only [decodeUnit, unitFrame_code]
  exact decodeByteByte_unitFrame _ _ _ _
theorem sboxFwd (x : Byte) : Statement (.sboxFwd x) := by
  unfold Statement encode
  rw [decode_unitFrame]
  simp only [decodeUnit, unitFrame_code]
  exact decodeByte_unitFrame _ _ _
theorem sboxInv (x : Byte) : Statement (.sboxInv x) := by
  unfold Statement encode
  rw [decode_unitFrame]
  simp only [decodeUnit, unitFrame_code]
  exact decodeByte_unitFrame _ _ _
theorem rcon (r : BitVec 4) : Statement (.rcon r) := by
  unfold Statement encode
  rw [decode_unitFrame]
  simp only [decodeUnit, unitFrame_code]
  exact decodeIndex_unitFrame _ _ _
theorem rotWord (w : Word) : Statement (.rotWord w) := by
  unfold Statement encode
  rw [decode_unitFrame]
  simp only [decodeUnit, unitFrame_code]
  exact decodeWord_unitFrame _ _ _
theorem subWord (w : Word) : Statement (.subWord w) := by
  unfold Statement encode
  rw [decode_unitFrame]
  simp only [decodeUnit, unitFrame_code]
  exact decodeWord_unitFrame _ _ _
theorem gFunc (w : Word) (r : BitVec 4) : Statement (.gFunc w r) := by
  unfold Statement encode
  rw [decode_unitFrame]
  simp only [decodeUnit, unitFrame_code]
  exact decodeWordIndex_unitFrame _ _ _ _
theorem keyStep (rkPrev : Block) (round : BitVec 4) : Statement (.keyStep rkPrev round) := by
  unfold Statement encode
  rw [decode_unitFrame]
  simp only [decodeUnit, unitFrame_code]
  exact decodeBlockIndex_unitFrame _ _ _ _
theorem keyExpand (key : Block) : Statement (.keyExpand key) := by
  unfold Statement encode
  rw [decode_unitFrame]
  simp only [decodeUnit, unitFrame_code]
  exact decodeBlock_unitFrame _ _ _
theorem addRoundKey (state rk : Block) : Statement (.addRoundKey state rk) := by
  unfold Statement encode
  rw [decode_unitFrame]
  simp only [decodeUnit, unitFrame_code]
  exact decodeBlockBlock_unitFrame _ _ _ _
theorem subBytes (state : Block) : Statement (.subBytes state) := by
  unfold Statement encode
  rw [decode_unitFrame]
  simp only [decodeUnit, unitFrame_code]
  exact decodeBlock_unitFrame _ _ _
theorem invSubBytes (state : Block) : Statement (.invSubBytes state) := by
  unfold Statement encode
  rw [decode_unitFrame]
  simp only [decodeUnit, unitFrame_code]
  exact decodeBlock_unitFrame _ _ _
theorem shiftRows (state : Block) : Statement (.shiftRows state) := by
  unfold Statement encode
  rw [decode_unitFrame]
  simp only [decodeUnit, unitFrame_code]
  exact decodeBlock_unitFrame _ _ _
theorem invShiftRows (state : Block) : Statement (.invShiftRows state) := by
  unfold Statement encode
  rw [decode_unitFrame]
  simp only [decodeUnit, unitFrame_code]
  exact decodeBlock_unitFrame _ _ _
theorem mixColumns (state : Block) : Statement (.mixColumns state) := by
  unfold Statement encode
  rw [decode_unitFrame]
  simp only [decodeUnit, unitFrame_code]
  exact decodeBlock_unitFrame _ _ _
theorem invMixColumns (state : Block) : Statement (.invMixColumns state) := by
  unfold Statement encode
  rw [decode_unitFrame]
  simp only [decodeUnit, unitFrame_code]
  exact decodeBlock_unitFrame _ _ _
theorem encRound (stateIn rk : Block) : Statement (.encRound stateIn rk) := by
  unfold Statement encode
  rw [decode_unitFrame]
  simp only [decodeUnit, unitFrame_code]
  exact decodeRound_unitFrame_zero _ _ _ _ _
theorem encRoundFinal (stateIn rk : Block) : Statement (.encRoundFinal stateIn rk) := by
  unfold Statement encode
  rw [decode_unitFrame]
  simp only [decodeUnit, unitFrame_code]
  exact decodeRound_unitFrame_one _ _ _ _ _
theorem decRound (stateIn rk : Block) : Statement (.decRound stateIn rk) := by
  unfold Statement encode
  rw [decode_unitFrame]
  simp only [decodeUnit, unitFrame_code]
  exact decodeRound_unitFrame_zero _ _ _ _ _
theorem decRoundFirst (stateIn rk : Block) : Statement (.decRoundFirst stateIn rk) := by
  unfold Statement encode
  rw [decode_unitFrame]
  simp only [decodeUnit, unitFrame_code]
  exact decodeRound_unitFrame_one _ _ _ _ _
theorem aes128Encrypt (blockIn keyIn : Block) : Statement (.aes128Encrypt blockIn keyIn) := by
  unfold Statement encode
  rw [decode_unitFrame]
  simp only [decodeUnit, unitFrame_code]
  exact decodeBlockBlock_unitFrame _ _ _ _
theorem aes128Decrypt (blockIn keyIn : Block) : Statement (.aes128Decrypt blockIn keyIn) := by
  unfold Statement encode
  rw [decode_unitFrame]
  simp only [decodeUnit, unitFrame_code]
  exact decodeBlockBlock_unitFrame _ _ _ _

/-- The family for every operation. -/
theorem all (i : Instr) : Statement i := by
  cases i with
  | reset a b c => exact reset a b c
  | encrypt a b c => exact encrypt a b c
  | decrypt a b c => exact decrypt a b c
  | nop a b => exact nop a b
  | rkRead a => exact rkRead a
  | gf28Add a b => exact gf28Add a b
  | gf28Sub a b => exact gf28Sub a b
  | gf28Mult a b => exact gf28Mult a b
  | sboxFwd a => exact sboxFwd a
  | sboxInv a => exact sboxInv a
  | rcon a => exact rcon a
  | rotWord a => exact rotWord a
  | subWord a => exact subWord a
  | gFunc a b => exact gFunc a b
  | keyStep a b => exact keyStep a b
  | keyExpand a => exact keyExpand a
  | addRoundKey a b => exact addRoundKey a b
  | subBytes a => exact subBytes a
  | invSubBytes a => exact invSubBytes a
  | shiftRows a => exact shiftRows a
  | invShiftRows a => exact invShiftRows a
  | mixColumns a => exact mixColumns a
  | invMixColumns a => exact invMixColumns a
  | encRound a b => exact encRound a b
  | encRoundFinal a b => exact encRoundFinal a b
  | decRound a b => exact decRound a b
  | decRoundFirst a b => exact decRoundFirst a b
  | aes128Encrypt a b => exact aes128Encrypt a b
  | aes128Decrypt a b => exact aes128Decrypt a b

end Sys2Proof.Laws.FrameRoundTrip
end

