-- ==== Sys2Proof/Laws/Queue.lean ====
section
/-! SUPPORT. No access looks at the host's queue or changes it; so encoded accesses that wait are performed one a
step, and that is the run of the accesses; runs of the machine and of the host contract (log entries 11, 25). -/

namespace Sys2Proof.Machine

/-- An outcome with another queue in its state. -/
def withQueue (h : List HostItem) : Host.Outcome State Fault Refusal → Host.Outcome State Fault Refusal
  | .next s => .next { s with host := h }
  | .fault r => .fault r
  | .refused r => .refused r

/-- An edge does not depend on the queue and keeps it. -/
theorem clockEdge_withQueue (e : EdgeInputs) (s : State) (h : List HostItem) :
    clockEdge e { s with host := h } = withQueue h (clockEdge e s) := by
  cases hr : e.rst with
  | true =>
    by_cases hi : s.phase = .idle <;>
      simp [clockEdge_reset hr, withQueue, State.countReset, State.driveRkIdx, State.countChange, State.resetEdge, hi]
  | false =>
    cases hp : s.phase with
    | idle =>
      cases hs : e.start <;>
        simp [clockEdge, hr, hs, hp, withQueue, State.countChange, State.driveRkIdx, State.accept, State.setRoundKey]
    | done =>
      cases hs : e.start <;>
        simp [clockEdge, hr, hs, hp, withQueue, State.countChange, State.driveRkIdx, State.accept, State.setRoundKey]
    | expand =>
      by_cases h0 : s.ctr = 0
      · simp [clockEdge, hr, hp, State.countChange, State.expandStep, h0, withQueue]
      · by_cases h1 : s.ctr.val < 10 <;>
          simp [clockEdge, hr, hp, State.countChange, State.expandStep, State.setRoundKey, h0, h1, withQueue]
    | cipher =>
      cases ho : s.opReg with
      | encrypt =>
        by_cases h0 : s.ctr = 0
        · simp [clockEdge, hr, hp, ho, State.countChange, State.encryptStep, rkSel, h0, withQueue]
        · by_cases h1 : s.ctr.val < 10 <;>
            simp [clockEdge, hr, hp, ho, State.countChange, State.encryptStep, rkSel, h0, h1, withQueue]
      | decrypt =>
        by_cases h0 : s.ctr = 10
        · simp [clockEdge, hr, hp, ho, State.countChange, State.decryptStep, rkSel, h0, withQueue]
        · by_cases h1 : 1 ≤ s.ctr.val <;>
            simp [clockEdge, hr, hp, ho, State.countChange, State.decryptStep, rkSel, h0, h1, withQueue]

/-- No access depends on the queue, and each keeps it. -/
theorem exec_withQueue (i : Instr) (s : State) (h : List HostItem) :
    exec i { s with host := h } = withQueue h (exec i s) := by
  cases hi : i.edgeInputs with
  | some e => rw [exec_of_edgeInputs hi, exec_of_edgeInputs hi]; exact clockEdge_withQueue e s h
  | none => cases i <;> simp [Instr.edgeInputs] at hi <;> rfl

/-- An access that gives a next state keeps the queue. -/
theorem exec_host {i : Instr} {s t : State} (h : exec i s = .next t) : t.host = s.host := by
  have e : exec i s = withQueue s.host (exec i s) := exec_withQueue i s s.host
  rw [h] at e
  have e' : t = { t with host := s.host } := Host.Outcome.next.inj e
  have := congrArg State.host e'
  exact this

/-- A step with an encoded access waiting performs it. -/
theorem step_of_ofInstr {s : State} {i : Instr} {rest : List HostItem} (h : s.host = .ofInstr i :: rest) :
    step s = exec i { s with host := rest } := by
  rw [step_of_access h, Laws.FrameRoundTrip.all i]
  rfl

/-! ### Runs of the machine -/

/-- A run of one step more. -/
theorem run_succ {n : Nat} {s t : State} (h : step s = .next t) :
    Host.Core.run Sys2Proof.core (n + 1) s = Host.Core.run Sys2Proof.core n t := by
  simp only [Host.Core.run]
  rw [show Sys2Proof.core.step s = step s from rfl, h]

/-- A run of two parts is the second part from where the first left the machine. -/
theorem run_add {n m : Nat} {s t : State} (h : Host.Core.run Sys2Proof.core n s = .next t) :
    Host.Core.run Sys2Proof.core (n + m) s = Host.Core.run Sys2Proof.core m t := by
  induction n generalizing s with
  | zero => cases h; rw [Nat.zero_add]
  | succ n ih =>
    rw [Nat.succ_add]
    simp only [Host.Core.run] at h ⊢
    cases hs : Sys2Proof.core.step s with
    | next u => rw [hs] at h; exact ih h
    | fault r => simp [hs] at h
    | refused r => simp [hs] at h

/-- Encoded accesses at the head of the queue are performed one a step; what comes after them stays. -/
theorem run_of_queue {is : List Instr} {s t : State} {rest : List HostItem} (hq : s.host = is.map .ofInstr ++ rest)
    (h : execAll is { s with host := rest } = .next t) :
    Host.Core.run Sys2Proof.core is.length s = .next t := by
  induction is generalizing s with
  | nil =>
    have : { s with host := rest } = s := by rw [← show s.host = rest from hq]
    rw [this] at h
    exact h
  | cons i is ih =>
    have hs : step s = exec i { s with host := is.map .ofInstr ++ rest } := step_of_ofInstr hq
    rw [exec_withQueue] at hs
    simp only [execAll, exec_withQueue i s rest] at h
    cases hx : exec i s with
    | fault r => simp [hx, withQueue] at h
    | refused r => simp [hx, withQueue] at h
    | next u =>
      rw [hx] at hs h
      rw [List.length_cons, run_succ hs]
      exact ih (s := { u with host := is.map .ofInstr ++ rest }) rfl h

/-- A run that the host contract does not refuse is a run of the machine. -/
theorem run_of_hostRun {n : Nat} {h : RunHistory} {s t : State} (hr : hostRun n h s = .ran t) :
    Host.Core.run Sys2Proof.core n s = .next t := by
  induction n generalizing s h with
  | zero => cases hr; rfl
  | succ n ih =>
    simp only [hostRun] at hr
    cases hd : nextDepartures h s with
    | cons d ds => simp [hd] at hr
    | nil =>
      rw [hd] at hr
      cases hs : step s with
      | next u => rw [hs] at hr; rw [run_succ hs]; exact ih hr
      | fault r => simp [hs] at hr
      | refused r => simp [hs] at hr

end Sys2Proof.Machine
end

