-- ==== Sys2Proof/Tests/Slice0.lean ====
section
/-! SUPPORT. The model's own tests: which operations are well formed, decoding of words written out from the
spec's encodings, single operations against spec/95_test_vectors.md (the vector's id stands in the docstring),
and a witness for the hypotheses of every statement that has some. Expected values are the spec's. -/

open Sys2Proof Sys2Proof.Machine

/-! ### Helpers -/

/-- A state of the core in the middle of things. -/
def testState (phase : Phase) (ctr : RoundIndex) (op : Op) (st : Block) (rk : Schedule) : State :=
  { State.reset with phase := phase, ctr := ctr, opReg := op, stateReg := st, rk := rk }

/-- A round-key file of zeros but for one entry. -/
def testKeys (i : RoundIndex) (k : Block) : Schedule := (Vector.replicate 11 0).set i.val k

/-- The outcome is a next state of which `p` holds. -/
def nextWith (o : Host.Outcome State Fault Refusal) (p : State → Bool) : Bool :=
  match o with
  | .next t => p t
  | .fault _ => false
  | .refused _ => false

/-- The operation completes from reset and samples `v`. -/
def samples (i : Instr) (v : Sample) : Bool := nextWith (exec i State.reset) fun t => t.sampled == v

/-- The frame decodes to the operation. -/
def decodesTo (f : Frame) (i : Instr) : Bool :=
  match decode f with
  | .ok j => j == i
  | .error _ => false

/-- The frame is no access. -/
def refuses (f : Frame) : Bool :=
  match decode f with
  | .ok _ => false
  | .error _ => true

/-- NOP edges. -/
def nops (n : Nat) : List Instr := List.replicate n (.nop .encrypt 0)

/-- The key and the blocks of V-KAT1. -/
def katKey : Block := 0x000102030405060708090a0b0c0d0e0f
def katPlain : Block := 0x00112233445566778899aabbccddeeff
def katCipher : Block := 0x69c4e0d86a7b0430d8cdb78070b4c55a

/-- The schedule of the zero key is in place and CIPHER about to begin. -/
def cipherState (op : Op) : State := testState .cipher (firstCipherCtr op) op 0 (keyExpand 0)

/-! ### Well-formedness: an ill-formed term for each check -/

/-- 30_encoding.md R77: `rk_idx` 11..15. -/
theorem test_wellFormed_rkRead :
    (Instr.rkRead 10).wellFormed = true ∧ (Instr.rkRead 11).wellFormed = false ∧
      (Instr.rkRead 15).wellFormed = false := by decide

/-- 30_encoding.md R77: `round` 0 and 11..15, at each operation that takes one. -/
theorem test_wellFormed_round :
    (Instr.rcon 1).wellFormed = true ∧ (Instr.rcon 10).wellFormed = true ∧
      (Instr.rcon 0).wellFormed = false ∧ (Instr.rcon 11).wellFormed = false ∧
      (Instr.gFunc 0 10).wellFormed = true ∧ (Instr.gFunc 0 0).wellFormed = false ∧
      (Instr.keyStep 0 10).wellFormed = true ∧ (Instr.keyStep 0 15).wellFormed = false := by decide

/-- 30_encoding.md R72: `rk_idx` is a don't-care of a command. -/
theorem test_wellFormed_command : (Instr.encrypt 15 0 0).wellFormed = true := by decide

/-! ### Decoding: every constructor, from words written out -/

/-- The control words of 30_encoding.md R72, R79: rst, start, op, rk_idx from bit 6 down. -/
theorem test_decode_commands :
    decodesTo ⟨0b01000000, 0, 0, 0⟩ (.reset false .encrypt 0) = true ∧
      decodesTo ⟨0b01111111, 0, 5, 6⟩ (.reset true .decrypt 15) = true ∧
      decodesTo ⟨0b00100000, 0, katKey, katPlain⟩ (.encrypt 0 katKey katPlain) = true ∧
      decodesTo ⟨0b00110011, 0, katKey, katCipher⟩ (.decrypt 3 katKey katCipher) = true ∧
      decodesTo ⟨0b00011010, 0, 0, 0⟩ (.nop .decrypt 10) = true := by decide

/-- RK_READ and the field operations: bit 7 of `head` and the row's number (log entry 10). -/
theorem test_decode_field :
    decodesTo ⟨0b10000100, 0x0F, 0, 0⟩ (.rkRead 15) = true ∧
      decodesTo ⟨0b10000101, 0, 0x57, 0x83⟩ (.gf28Add 0x57 0x83) = true ∧
      decodesTo ⟨0b10000110, 0, 0x57, 0x83⟩ (.gf28Sub 0x57 0x83) = true ∧
      decodesTo ⟨0b10000111, 0, 0x57, 0xFF⟩ (.gf28Mult 0x57 0xFF) = true := by decide

/-- The tables and the key schedule. -/
theorem test_decode_keySchedule :
    decodesTo ⟨0b10001000, 0, 0x53, 0⟩ (.sboxFwd 0x53) = true ∧
      decodesTo ⟨0b10001001, 0, 0xED, 0⟩ (.sboxInv 0xED) = true ∧
      decodesTo ⟨0b10001010, 9, 0, 0⟩ (.rcon 9) = true ∧
      decodesTo ⟨0b10001011, 0, 0x0c0d0e0f, 0⟩ (.rotWord 0x0c0d0e0f) = true ∧
      decodesTo ⟨0b10001100, 0, 0x0d0e0f0c, 0⟩ (.subWord 0x0d0e0f0c) = true ∧
      decodesTo ⟨0b10001101, 10, 0xffffffff, 0⟩ (.gFunc 0xffffffff 10) = true ∧
      decodesTo ⟨0b10001110, 1, katKey, 0⟩ (.keyStep katKey 1) = true ∧
      decodesTo ⟨0b10001111, 0, katKey, 0⟩ (.keyExpand katKey) = true := by decide

/-- The round transformations. -/
theorem test_decode_round :
    decodesTo ⟨0b10010000, 0, katPlain, katKey⟩ (.addRoundKey katPlain katKey) = true ∧
      decodesTo ⟨0b10010001, 0, katPlain, 0⟩ (.subBytes katPlain) = true ∧
      decodesTo ⟨0b10010010, 0, katPlain, 0⟩ (.invSubBytes katPlain) = true ∧
      decodesTo ⟨0b10010011, 0, katPlain, 0⟩ (.shiftRows katPlain) = true ∧
      decodesTo ⟨0b10010100, 0, katPlain, 0⟩ (.invShiftRows katPlain) = true ∧
      decodesTo ⟨0b10010101, 0, katPlain, 0⟩ (.mixColumns katPlain) = true ∧
      decodesTo ⟨0b10010110, 0, katPlain, 0⟩ (.invMixColumns katPlain) = true := by decide

/-- The round modules, chosen by `last` and `first` (30_encoding.md R76), and the whole-block functions. -/
theorem test_decode_modules :
    decodesTo ⟨0b10010111, 0, katPlain, katKey⟩ (.encRound katPlain katKey) = true ∧
      decodesTo ⟨0b10010111, 1, katPlain, katKey⟩ (.encRoundFinal katPlain katKey) = true ∧
      decodesTo ⟨0b10011001, 0, katPlain, katKey⟩ (.decRound katPlain katKey) = true ∧
      decodesTo ⟨0b10011001, 1, katPlain, katKey⟩ (.decRoundFirst katPlain katKey) = true ∧
      decodesTo ⟨0b10011011, 0, katPlain, katKey⟩ (.aes128Encrypt katPlain katKey) = true ∧
      decodesTo ⟨0b10011100, 0, katCipher, katKey⟩ (.aes128Decrypt katCipher katKey) = true := by decide

/-- Bits the frame has no place for are refused: an unknown number, a select, an operand (log entry 10). -/
theorem test_decode_refuses :
    refuses ⟨0x83, 0, 0, 0⟩ = true ∧ refuses ⟨0x9D, 0, 0, 0⟩ = true ∧ refuses ⟨0x84, 0x10, 0, 0⟩ = true ∧
      refuses ⟨0x97, 2, 0, 0⟩ = true ∧ refuses ⟨0x85, 0, 0x100, 0⟩ = true ∧ refuses ⟨0x91, 0, 0, 1⟩ = true ∧
      refuses ⟨0x40, 1, 0, 0⟩ = true := by decide

/-- A frame as bytes, each operand with byte 0 first (20_memory.md R50). -/
theorem test_decode_bytes :
    (match decodeBytes ([0x20, 0x00] ++
        [0x00, 0x01, 0x02, 0x03, 0x04, 0x05, 0x06, 0x07, 0x08, 0x09, 0x0a, 0x0b, 0x0c, 0x0d, 0x0e, 0x0f] ++
        [0x00, 0x11, 0x22, 0x33, 0x44, 0x55, 0x66, 0x77, 0x88, 0x99, 0xaa, 0xbb, 0xcc, 0xdd, 0xee, 0xff]) with
      | .ok i => i == .encrypt 0 katKey katPlain
      | .error _ => false) = true := by decide +kernel

/-- The word the host places is what the very next step runs. -/
theorem test_withFetchWord :
    nextWith (step (State.reset.withFetchWord 8 0x20)) (fun t => t.phase == .expand && t.opReg == .encrypt) = true ∧
      nextWith (step (State.reset.withFetchWord 8 0x30)) (fun t => t.phase == .expand && t.opReg == .decrypt) = true ∧
      nextWith (step (State.reset.withFetchWord 8 0x40)) (fun t => t.phase == .idle) = true := by decide

/-! ### Field arithmetic (95_test_vectors.md 2.1) -/

/-- V-GF1, V-GF2. -/
theorem test_gf28Add : samples (.gf28Add 0x57 0x83) (.byte 0xD4) = true ∧ samples (.gf28Add 0xA5 0xA5) (.byte 0) = true := by
  decide

/-- V-GF4. -/
theorem test_gf28Sub : samples (.gf28Sub 0x57 0x83) (.byte 0xD4) = true := by decide

/-- V-GF5, V-GF9, V-GF10: the reduction from its top degree down. -/
theorem test_gf28Mult_reduces :
    samples (.gf28Mult 0x57 0x83) (.byte 0xC1) = true ∧ samples (.gf28Mult 0x80 0x80) (.byte 0x9A) = true ∧
      samples (.gf28Mult 0xFF 0xFF) (.byte 0x13) = true := by decide

/-- V-GF7, V-GF8, V-GF19. -/
theorem test_gf28Mult_corners :
    samples (.gf28Mult 0x57 0x02) (.byte 0xAE) = true ∧ samples (.gf28Mult 0x80 0x02) (.byte 0x1B) = true ∧
      samples (.gf28Mult 0x00 0xA5) (.byte 0) = true := by decide

/-! ### Substitution tables (2.2) -/

/-- V-SB1, V-SB3, V-SB4, V-SB10: a high and a low nibble that differ, and both ends. -/
theorem test_sboxFwd :
    samples (.sboxFwd 0x00) (.byte 0x63) = true ∧ samples (.sboxFwd 0x53) (.byte 0xED) = true ∧
      samples (.sboxFwd 0xFF) (.byte 0x16) = true ∧ samples (.sboxFwd 0x9A) (.byte 0xB8) = true := by decide +kernel

/-- V-SB1, V-SB3, V-SB4, V-SB10. -/
theorem test_sboxInv :
    samples (.sboxInv 0x00) (.byte 0x52) = true ∧ samples (.sboxInv 0x53) (.byte 0x50) = true ∧
      samples (.sboxInv 0xFF) (.byte 0x7D) = true ∧ samples (.sboxInv 0x9A) (.byte 0x37) = true := by decide +kernel

/-! ### Key schedule (2.3) -/

/-- Section 2.3's round constants: the last of the doubles, the reduced ones, the reserved ones. -/
theorem test_rcon :
    samples (.rcon 8) (.byte 0x80) = true ∧ samples (.rcon 9) (.byte 0x1B) = true ∧
      samples (.rcon 10) (.byte 0x36) = true ∧ samples (.rcon 0) (.byte 0) = true ∧
      samples (.rcon 11) (.byte 0) = true := by decide

/-- V-KS1. -/
theorem test_rotWord : samples (.rotWord 0x0c0d0e0f) (.word 0x0d0e0f0c) = true := by decide

/-- V-KS3. -/
theorem test_subWord : samples (.subWord 0x0d0e0f0c) (.word 0xd7ab76fe) = true := by decide +kernel

/-- V-KS5, V-KS6, V-KS7: the constant in byte 0 only. -/
theorem test_gFunc :
    samples (.gFunc 0x0c0d0e0f 1) (.word 0xd6ab76fe) = true ∧ samples (.gFunc 0 9) (.word 0x78636363) = true ∧
      samples (.gFunc 0xffffffff 10) (.word 0x20161616) = true := by decide +kernel

/-- V-KS8, V-KS10. -/
theorem test_keyStep :
    samples (.keyStep katKey 1) (.block 0xd6aa74fdd2af72fadaa678f1d6ab76fe) = true ∧
      samples (.keyStep 0xffffffffffffffffffffffffffffffff 1) (.block 0xe8e9e9e917161616e8e9e9e917161616) = true := by
  decide +kernel

/-- V-KS11: a reserved round number runs with constant 0x00 (log entry 6). -/
theorem test_keyStep_reserved :
    samples (.keyStep 0 0) (.block 0x63636363636363636363636363636363) = true ∧
      samples (.keyStep 0 15) (.block 0x63636363636363636363636363636363) = true := by decide +kernel

/-- Section 2.3's full schedules: RK_10, RK_2 and RK_0 of two keys, at their places on `rk_all`. -/
theorem test_keyExpand :
    nextWith (exec (.keyExpand katKey) State.reset) (fun t => match t.sampled with
      | .rkAll v => v.extractLsb' 0 128 == 0x13111d7fe3944a17f307a78b4d2b30c5 &&
          v.extractLsb' 1024 128 == 0xb692cf0b643dbdf1be9bc5006830b3fe && v.extractLsb' 1280 128 == katKey
      | _ => false) = true ∧
    (keyExpand 0x2b7e151628aed2a6abf7158809cf4f3c).get 10 = 0xd014f9a8c9ee2589e13f0cc8b6630ca6 := by decide +kernel

/-! ### Round transformations and modules (2.4) -/

/-- 43_round.md R140's example, V-RT1. -/
theorem test_addRoundKey :
    samples (.addRoundKey katPlain katKey) (.block 0x00102030405060708090a0b0c0d0e0f0) = true ∧
      samples (.addRoundKey katKey katKey) (.block 0) = true := by decide +kernel

/-- Round 1 of the encryption trace. -/
theorem test_subBytes :
    samples (.subBytes 0x00102030405060708090a0b0c0d0e0f0) (.block 0x63cab7040953d051cd60e0e7ba70e18c) = true := by
  decide +kernel

/-- Inverse round 10 of the decryption trace, and V-RT8. -/
theorem test_invSubBytes :
    samples (.invSubBytes 0x7a9f102789d5f50b2beffd9f3dca4ea7) (.block 0xbd6e7c3df2b5779e0b61216e8b10b689) = true ∧
      samples (.invSubBytes 0) (.block 0x52525252525252525252525252525252) = true := by decide +kernel

/-- V-RT2. -/
theorem test_shiftRows : samples (.shiftRows katKey) (.block 0x00050a0f04090e03080d02070c01060b) = true := by
  decide +kernel

/-- V-RT3. -/
theorem test_invShiftRows : samples (.invShiftRows katKey) (.block 0x000d0a0704010e0b0805020f0c090603) = true := by
  decide +kernel

/-- V-RT5, and V-MC1 to V-MC4 as the four columns of one Block. -/
theorem test_mixColumns :
    samples (.mixColumns katKey) (.block 0x02070005060304010a0f080d0e0b0c09) = true ∧
      samples (.mixColumns 0xdb135345f20a225cd4d4d4d52d26314c)
        (.block 0x8e4da1bc9fdc589dd5d5d7d64d7ebdf8) = true := by decide +kernel

/-- V-RT6, and V-MC1 to V-MC4 as the four columns of one Block. -/
theorem test_invMixColumns :
    samples (.invMixColumns katKey) (.block 0x0a0f080d0e0b0c090207000506030401) = true ∧
      samples (.invMixColumns 0xdb135345f20a225cd4d4d4d52d26314c)
        (.block 0x32a41d55aec36982ddd9dfdaa05050d6) = true := by decide +kernel

/-- Round 1 of the encryption trace (43_round.md R147's example). -/
theorem test_encRound :
    samples (.encRound 0x00102030405060708090a0b0c0d0e0f0 0xd6aa74fdd2af72fadaa678f1d6ab76fe)
      (.block 0x89d810e8855ace682d1843d8cb128fe4) = true := by decide +kernel

/-- Round 10 of the encryption trace (43_round.md R148's example). -/
theorem test_encRoundFinal :
    samples (.encRoundFinal 0xbd6e7c3df2b5779e0b61216e8b10b689 0x13111d7fe3944a17f307a78b4d2b30c5)
      (.block katCipher) = true := by decide +kernel

/-- Inverse round 9 of the decryption trace (43_round.md R149's example). -/
theorem test_decRound :
    samples (.decRound 0xbd6e7c3df2b5779e0b61216e8b10b689 0x549932d1f08557681093ed9cbe2c974e)
      (.block 0xfde3bad205e5d0d73547964ef1fe37f1) = true := by decide +kernel

/-- Inverse round 10 of the decryption trace (43_round.md R150's example). -/
theorem test_decRoundFirst :
    samples (.decRoundFirst katCipher 0x13111d7fe3944a17f307a78b4d2b30c5)
      (.block 0xbd6e7c3df2b5779e0b61216e8b10b689) = true := by decide +kernel

/-! ### Whole-block functions (1, 2.5) -/

/-- V-KAT1. -/
theorem test_aes128Encrypt_kat1 : samples (.aes128Encrypt katPlain katKey) (.block katCipher) = true := by
  decide +kernel

/-- V-KAT2. -/
theorem test_aes128Encrypt_kat2 :
    samples (.aes128Encrypt 0 0) (.block 0x66e94bd4ef8a2c3b884cfa59ca342b2e) = true := by decide +kernel

/-- V-KAT1. -/
theorem test_aes128Decrypt_kat1 : samples (.aes128Decrypt katCipher katKey) (.block katPlain) = true := by
  decide +kernel

/-- V-CI3: decryption is not encryption. -/
theorem test_aes128Decrypt_zero :
    samples (.aes128Decrypt 0 0) (.block 0x140f0f1011b5223d79587717ffd9ec3a) = true := by decide +kernel

/-! ### The sequencer (2.6, 2.7) -/

/-- Edge e0 of the ENCRYPT trace. -/
theorem test_encrypt_accepted :
    nextWith (exec (.encrypt 0 katKey katPlain) State.reset) (fun t =>
      t.phase == .expand && t.ctr == 1 && t.opReg == .encrypt && t.rk.get 0 == katKey && t.stateReg == katPlain &&
      busy t && !done t && !rkValid t) = true := by decide

/-- V-SQ3's start, as ENCRYPT: ignored while busy. -/
theorem test_encrypt_ignored :
    nextWith (exec (.encrypt 0 katKey katPlain) (testState .expand 6 .decrypt 5 (testKeys 0 7))) (fun t =>
      t.phase == .expand && t.ctr == 7 && t.opReg == .decrypt && t.rk.get 0 == 7 && t.stateReg == 5) = true := by
  decide +kernel

/-- V-SQ5: a new command is accepted in DONE. -/
theorem test_decrypt_accepted :
    nextWith (exec (.decrypt 0 katKey katCipher) (testState .done 10 .encrypt 1 (testKeys 0 7))) (fun t =>
      t.phase == .expand && t.ctr == 1 && t.opReg == .decrypt && t.rk.get 0 == katKey && t.stateReg == katCipher) =
      true := by decide

/-- V-SQ3. -/
theorem test_decrypt_ignored :
    nextWith (exec (.decrypt 0 0 0) (testState .expand 6 .encrypt katPlain
      (testKeys 5 0x3caaa3e8a99f9deb50f3af57adf622aa))) (fun t =>
      t.phase == .expand && t.ctr == 7 && t.opReg == .encrypt && t.stateReg == katPlain &&
      t.rk.get 6 == 0x5e390f7df7a69296a7553dc10aa31f6b) = true := by decide +kernel

/-- V-SQ4: reset wins over start and over the running command. -/
theorem test_reset :
    nextWith (exec (.reset true .decrypt 0) (testState .cipher 7 .decrypt 1 (testKeys 0 7))) (fun t =>
      t.phase == .idle && t.ctr == 0 && t.opReg == .encrypt && !busy t && !done t && !rkValid t &&
      rkPort t 11 == 0 && rkPort t 15 == 0) = true := by decide

/-- V-SQ1, V-SQ2: hold. -/
theorem test_nop_holds :
    nextWith (exec (.nop .encrypt 0) (testState .done 10 .encrypt katCipher (testKeys 0 7))) (fun t =>
      t.phase == .done && t.ctr == 10 && blockOut t == katCipher && done t) = true ∧
    nextWith (exec (.nop .decrypt 0) State.reset) (fun t => t.phase == .idle && t.ctr == 0 && !busy t) = true := by
  decide

/-- V-SQ7, V-SQ8: the last key step. -/
theorem test_nop_ends_expand :
    nextWith (exec (.nop .encrypt 0) (testState .expand 10 .encrypt 0
      (testKeys 9 0x549932d1f08557681093ed9cbe2c974e))) (fun t =>
      t.phase == .cipher && t.ctr == 0 && rkValid t && t.rk.get 10 == 0x13111d7fe3944a17f307a78b4d2b30c5) = true ∧
    nextWith (exec (.nop .encrypt 0) (testState .expand 10 .decrypt 0 (testKeys 9 0))) (fun t =>
      t.phase == .cipher && t.ctr == 10) = true := by decide +kernel

/-- Edges e12 and e21 of the ENCRYPT trace. -/
theorem test_nop_encryption_steps :
    nextWith (exec (.nop .encrypt 0) (testState .cipher 1 .encrypt 0x00102030405060708090a0b0c0d0e0f0
      (testKeys 1 0xd6aa74fdd2af72fadaa678f1d6ab76fe))) (fun t =>
      t.phase == .cipher && t.ctr == 2 && t.stateReg == 0x89d810e8855ace682d1843d8cb128fe4) = true ∧
    nextWith (exec (.nop .encrypt 0) (testState .cipher 10 .encrypt 0xbd6e7c3df2b5779e0b61216e8b10b689
      (testKeys 10 0x13111d7fe3944a17f307a78b4d2b30c5))) (fun t =>
      t.phase == .done && t.ctr == 10 && t.stateReg == katCipher) = true := by decide +kernel

/-- Edges e11, e12 and e21 of the DECRYPT trace. -/
theorem test_nop_decryption_steps :
    nextWith (exec (.nop .encrypt 0) (testState .cipher 10 .decrypt katCipher
      (testKeys 10 0x13111d7fe3944a17f307a78b4d2b30c5))) (fun t =>
      t.phase == .cipher && t.ctr == 9 && t.stateReg == 0xbd6e7c3df2b5779e0b61216e8b10b689) = true ∧
    nextWith (exec (.nop .encrypt 0) (testState .cipher 9 .decrypt 0xbd6e7c3df2b5779e0b61216e8b10b689
      (testKeys 9 0x549932d1f08557681093ed9cbe2c974e))) (fun t =>
      t.ctr == 8 && t.stateReg == 0xfde3bad205e5d0d73547964ef1fe37f1) = true ∧
    nextWith (exec (.nop .encrypt 0) (testState .cipher 0 .decrypt 0x00102030405060708090a0b0c0d0e0f0
      (testKeys 0 katKey))) (fun t => t.phase == .done && t.ctr == 0 && t.stateReg == katPlain) = true := by
  decide +kernel

/-- V-SQ6 and section 2.3's note: the read port in DONE, at a defined and at a reserved index. -/
theorem test_rkRead :
    nextWith (exec (.rkRead 10) (testState .done 10 .encrypt 0 (testKeys 10 7))) (fun t =>
      t.sampled == .block 7 && t.phase == .done && t.changes == 0) = true ∧
    samples (.rkRead 11) (.block 0) = true ∧ samples (.rkRead 15) (.block 0) = true := by decide

/-! ### Host notation (30_encoding.md R79) -/

/-- ENCW is the command, a WAIT and a READ; RKDUMP is the eleven reads. -/
theorem test_hostLines :
    (HostLine.encw katKey katPlain).items = [.access ⟨0x20, 0, katKey, katPlain⟩, .wait, .read] ∧
      HostLine.rkDump.items.length = 11 ∧ (HostLine.nop 5).items.length = 5 ∧
      HostLine.reset.items = [.access ⟨0x40, 0, 0, 0⟩] := by decide

/-- V-KAT1's last edge by WAIT: the item goes when `done` is sampled as 1; after RESET it stays. -/
theorem test_wait :
    nextWith (step { testState .cipher 10 .encrypt 0xbd6e7c3df2b5779e0b61216e8b10b689
        (testKeys 10 0x13111d7fe3944a17f307a78b4d2b30c5) with host := [.wait, .read] }) (fun t =>
      t.host == [.read] && done t && blockOut t == katCipher) = true ∧
    nextWith (step { State.reset with host := [.wait] }) (fun t => t.host == [.wait] && !done t) = true := by
  decide +kernel

/-- P1, line 4: what READ samples in DONE. -/
theorem test_read :
    nextWith (step { testState .done 10 .encrypt katCipher (testKeys 0 0) with host := [.read] }) (fun t =>
      t.host == [] && t.sampled == .outputs ⟨katCipher, false, true, true⟩ && t.phase == .done) = true := by decide

/-! ### The host contract (70_reset_and_hazards.md R230) -/

/-- P4, line 4: a command while busy; the same command in DONE, where P3 issues one, is none. -/
theorem test_contract_command :
    hostRun 1 .afterReset ((testState .expand 6 .encrypt 0 (testKeys 0 0)).loadProgram [.dec 0 0]) =
        .refused [.commandWhileBusy] ∧
      nextDepartures .afterReset ((testState .done 10 .encrypt 0 (testKeys 0 0)).loadProgram [.dec 0 0]) = [] := by
  decide

/-- Outputs before their valid flags, a reserved index (P3, line 6), and a reserved round number (U6). -/
theorem test_contract_reads :
    nextDepartures .afterReset ((testState .cipher 0 .encrypt 0 (testKeys 0 0)).loadProgram [.read]) =
        [.blockOutBeforeDone] ∧
      nextDepartures .afterReset ((testState .done 10 .encrypt 0 (testKeys 0 0)).loadProgram [.rkRead 11]) =
        [.rkOutInvalid] ∧
      nextDepartures .afterReset (State.reset.loadProgram [.rkRead 0]) = [.rkOutInvalid, .survivesReset] ∧
      accessDepartures .afterReset (.keyStep 0 11) State.reset = [.reservedRound] := by decide

/-! ### Witnesses: what the statements assume can hold -/

/-- The invariant in CIPHER. -/
theorem test_inv_cipherState (op : Op) : SequencerInv (cipherState op) := by
  have h0 : (keyExpand 0).get 0 = 0 := by rw [keyExpand_get]; rfl
  refine ⟨fun h => by simp [cipherState, testState] at h, fun h => by simp [cipherState, testState] at h,
    fun _ i _ => ?_, fun h => by simp [cipherState, testState] at h⟩
  show (keyExpand 0).get i = roundKey ((keyExpand 0).get 0) i.val
  rw [h0, keyExpand_get]

/-- The invariant after reset. -/
theorem test_inv_reset : SequencerInv State.reset :=
  ⟨fun _ => ⟨rfl, rfl⟩, fun h => by simp [State.reset] at h, fun h => by simp [State.reset, rkValid] at h,
    fun h => by simp [State.reset] at h⟩

theorem test_witness_EncodeOfDecodedFrame :
    (⟨0x85, 0, 3, 4⟩ : Frame).head.getLsbD 7 = true ∧ decodesTo ⟨0x85, 0, 3, 4⟩ (.gf28Add 3 4) = true := by decide

/-- A word and a state for each of the five clauses. -/
theorem test_witness_ControlWordSelectsCommand :
    (0x7F : BitVec 7).getLsbD 6 = true ∧
      ((0x20 : BitVec 7).getLsbD 6 = false ∧ (0x20 : BitVec 7).getLsbD 5 = true ∧
        (0x20 : BitVec 7).getLsbD 4 = false ∧ (0x30 : BitVec 7).getLsbD 6 = false ∧
        (0x3F : BitVec 7).getLsbD 5 = true ∧ (0x3F : BitVec 7).getLsbD 4 = true) ∧
      busy State.reset = false ∧ busy (testState .expand 1 .encrypt 0 (testKeys 0 0)) = true ∧
      ((0x1F : BitVec 7).getLsbD 6 = false ∧ (0x1F : BitVec 7).getLsbD 5 = false) := by decide

theorem test_witness_StepPerformsDecodedAccess :
    (State.reset.withFetchWord 8 0x20).host = [.access ⟨0x20, 0, 0, 0⟩] ∧
      decodesTo ⟨0x20, 0, 0, 0⟩ (.encrypt 0 0 0) = true ∧ refuses ⟨0xFF, 0, 0, 0⟩ = true ∧
      State.reset.host = [] := by decide

theorem test_witness_StepPerformsEncodedAccess :
    (State.reset.loadProgram [.enc katKey katPlain, .nop 1]).host =
      [.access (encode (.encrypt 0 katKey katPlain)), .access (encode (.nop .encrypt 0))] := by decide

/-- A READ in DONE and one before it, and a WAIT whose turn ends it and one whose turn does not. -/
theorem test_witness_StepPerformsReadAndWait :
    ({ State.reset with host := [.read] } : State).host = [.read] ∧
      done { testState .done 10 .encrypt 7 (testKeys 0 0) with host := [.read] } = true ∧
      ({ State.reset with host := [.wait] } : State).host = [.wait] ∧
      nextWith (exec (.nop .encrypt 0) (testState .done 10 .encrypt 7 (testKeys 0 0))) done = true ∧
      nextWith (exec (.nop .encrypt 0) State.reset) (fun t => !done t) = true := by decide

/-- The ends of the ranges of the round numbers. -/
theorem test_witness_RoundConstants :
    (1 ≤ (1 : BitVec 4).toNat ∧ (1 : BitVec 4).toNat ≤ 9) ∧ (1 ≤ (9 : BitVec 4).toNat ∧ (9 : BitVec 4).toNat ≤ 9) ∧
      rcon 2 = 0x02 ∧ rcon 10 = 0x36 := by decide

theorem test_witness_KeyExpandIteratesKeyStep :
    (rkAllEntry (packSchedule (keyExpand 0)) 1) = 0x62636363626363636263636362636363 ∧
      (rkAllEntry (packSchedule (keyExpand 0)) 10) = 0xb4ef5bcb3e92e21123e951cf6f8f188e := by decide +kernel

/-- Both cases of the inverse: of 0, and of 0x53, whose inverse is 0xCA (V-GF15). -/
theorem test_witness_SboxIsAffineOfInverse :
    sboxFwd 0 = affine 0 ∧ gf28Mult 0x53 0xCA = 1 ∧ sboxFwd 0x53 = affine 0xCA := by decide +kernel

/-- The chain's first and last round with MixColumns, rounds 1 and 9 of the encryption trace. -/
theorem test_witness_CipherFunctionsChainRounds :
    aesEncRound 0x00102030405060708090a0b0c0d0e0f0 (roundKey katKey 1) false = 0x89d810e8855ace682d1843d8cb128fe4 ∧
      aesEncRound 0xfde3bad205e5d0d73547964ef1fe37f1 (roundKey katKey 9) false = 0xbd6e7c3df2b5779e0b61216e8b10b689 := by
  decide +kernel

theorem test_witness_CommandAcceptance :
    busy State.reset = false ∧ busy (testState .done 10 .encrypt 0 (testKeys 0 0)) = false ∧
      busy (testState .cipher 0 .encrypt 0 (testKeys 0 0)) = true := by decide

theorem test_witness_HoldKeepsRegisters :
    busy State.reset = false ∧ busy (testState .done 0 .decrypt 7 (testKeys 3 7)) = false := by decide

theorem test_witness_StartWhileBusyIgnored :
    busy (testState .expand 6 .encrypt 0 (testKeys 0 0)) = true ∧
      busy (testState .cipher 9 .decrypt 0 (testKeys 0 0)) = true := by decide

/-- `ctr` 1, 9 and 10. -/
theorem test_witness_ExpandStepWritesRoundKey :
    (testState .expand 1 .encrypt 0 (testKeys 0 0)).phase = .expand ∧ (Instr.decrypt 0 0 0).isRunEdge = true ∧
      (1 ≤ (testState .expand 1 .encrypt 0 (testKeys 0 0)).ctr.val) ∧
      ((testState .expand 9 .encrypt 0 (testKeys 0 0)).ctr.val < 10) ∧
      (testState .expand 10 .decrypt 0 (testKeys 0 0)).ctr = 10 := by decide

theorem test_witness_TenExpandEdgesLeaveSchedule :
    (testState .expand 1 .encrypt 0 (testKeys 0 katKey)).phase = .expand ∧
      (testState .expand 1 .encrypt 0 (testKeys 0 katKey)).ctr = 1 ∧ (nops 10).length = 10 ∧
      (∀ e ∈ nops 10, e.isRunEdge = true) := by decide

/-- `ctr` 0, 1, 9 and 10. -/
theorem test_witness_EncryptionStep :
    (cipherState .encrypt).phase = .cipher ∧ (cipherState .encrypt).opReg = .encrypt ∧
      (cipherState .encrypt).ctr = 0 ∧ (Instr.nop .encrypt 0).isRunEdge = true ∧
      1 ≤ (testState .cipher 1 .encrypt 0 (testKeys 0 0)).ctr.val ∧
      (testState .cipher 9 .encrypt 0 (testKeys 0 0)).ctr.val < 10 ∧
      (testState .cipher 10 .encrypt 0 (testKeys 0 0)).ctr = 10 := by decide

/-- `ctr` 10, 9, 1 and 0. -/
theorem test_witness_DecryptionStep :
    (cipherState .decrypt).phase = .cipher ∧ (cipherState .decrypt).opReg = .decrypt ∧
      (cipherState .decrypt).ctr = 10 ∧ (Instr.encrypt 0 0 0).isRunEdge = true ∧
      (testState .cipher 9 .decrypt 0 (testKeys 0 0)).ctr.val < 10 ∧
      1 ≤ (testState .cipher 1 .decrypt 0 (testKeys 0 0)).ctr.val ∧
      (testState .cipher 0 .decrypt 0 (testKeys 0 0)).ctr = 0 := by decide

theorem test_witness_ExpandWithCounterZeroFaults :
    (testState .expand 0 .encrypt 0 (testKeys 0 0)).phase = .expand ∧
      (testState .expand 0 .encrypt 0 (testKeys 0 0)).ctr = 0 ∧ (Instr.nop .encrypt 0).isRunEdge = true := by decide

/-- Indices 0, 10, 11 and 15, and a state in which the round keys are valid. -/
theorem test_witness_RoundKeyRead :
    (0 : BitVec 4).toNat < 11 ∧ (10 : BitVec 4).toNat < 11 ∧ 11 ≤ (11 : BitVec 4).toNat ∧
      11 ≤ (15 : BitVec 4).toNat ∧ rkValid (cipherState .encrypt) = true := by decide

/-- A hold edge, a read and a step by READ keep every register. -/
theorem test_witness_ReadsRepeatUntilStateChanges :
    (∃ t, exec (.nop .encrypt 3) State.reset = .next t ∧ SameRegisters State.reset t) ∧
      (∃ t, exec (.rkRead 4) (cipherState .encrypt) = .next t ∧ SameRegisters (cipherState .encrypt) t) ∧
      ∃ t, step { State.reset with host := [.read] } = .next t ∧ SameRegisters State.reset t :=
  ⟨⟨_, rfl, rfl, rfl, rfl, rfl, rfl⟩, ⟨_, rfl, rfl, rfl, rfl, rfl, rfl⟩, ⟨_, rfl, rfl, rfl, rfl, rfl, rfl⟩⟩

theorem test_witness_StatusOutputs :
    SequencerInv (cipherState .encrypt) ∧ rkValid (cipherState .encrypt) = true := ⟨test_inv_cipherState _, rfl⟩

/-- Every length at which an output or the phase changes: 0, 9, 10, 20 and 21. -/
theorem test_witness_EncryptCommandResult :
    busy State.reset = false ∧ (∀ n ∈ [0, 9, 10, 20, 21], (nops n).length ≤ 21 ∧ ∀ e ∈ nops n, e.isRunEdge = true) ∧
      (∀ e ∈ List.replicate 21 (Instr.encrypt 3 5 6), e.isRunEdge = true) := by decide

theorem test_witness_DecryptCommandResult :
    busy (testState .done 10 .encrypt 0 (testKeys 0 0)) = false ∧
      (∀ n ∈ [0, 9, 10, 20, 21], (nops n).length ≤ 21 ∧ ∀ e ∈ nops n, e.isRunEdge = true) := by decide

theorem test_witness_EdgeSchedule :
    busy State.reset = false ∧
      (∀ n ∈ [0, 9, 10, 20, 21], (nops n).length ≤ 21 ∧ ∀ e ∈ nops n, e.isRunEdge = true) := by decide

theorem test_witness_CoreRoundTrip :
    busy State.reset = false ∧ (nops 21).length = 21 ∧ (∀ e ∈ nops 21, e.isRunEdge = true) := by decide

theorem test_witness_EncwProgramRuns : State.reset.host = [] ∧ busy State.reset = false := by decide

theorem test_witness_WaitPollsTwentyOneEdges :
    busy State.reset = false ∧ (∃ t, exec (.encrypt 0 katKey katPlain) State.reset = .next t) ∧
      (∃ t, exec (.decrypt 0 katKey katCipher) State.reset = .next t) := ⟨rfl, ⟨_, rfl⟩, ⟨_, rfl⟩⟩

/-- `m` 0 and 20, both ends of `n`, IDLE and DONE. -/
theorem test_witness_WaitRunsRemainingEdges :
    State.reset.host = [] ∧ busy State.reset = false ∧ 0 ≤ 20 ∧ 20 ≤ 20 ∧ 20 ≤ 20 - 0 ∧ 0 ≤ 20 - 20 ∧
      State.reset.phase = .idle ∧ (testState .done 10 .encrypt 0 (testKeys 0 0)).host = [] ∧
      (testState .done 10 .encrypt 0 (testKeys 0 0)).phase = .done := by decide

/-- Each clause on the next item: a history before and after the first reset edge, EXPAND with a stale and a written
round key, IDLE, the indices and round numbers at the ends of their ranges. -/
theorem test_witness_ContractRefusesDepartures_item :
    RunHistory.powerOn.booted = false ∧ RunHistory.afterReset.booted = true ∧
      RunHistory.afterReset.keyed = false ∧ State.reset.phase = .idle ∧ rkValid State.reset = false ∧
      (State.reset.loadProgram [.read]).host = [.read] ∧
      (State.reset.loadProgram [.dec 1 2]).host = [.ofInstr (.decrypt 0 1 2)] ∧
      busy (testState .cipher 9 .decrypt 0 (testKeys 0 0)) = true ∧ done (testState .cipher 9 .decrypt 0 (testKeys 0 0)) = false ∧
      rkValid (testState .expand 10 .decrypt 0 (testKeys 0 0)) = false ∧
      (testState .expand 10 .decrypt 0 (testKeys 0 0)).ctr.val ≤ (10 : BitVec 4).toNat ∧
      ¬ (testState .expand 10 .decrypt 0 (testKeys 0 0)).ctr.val ≤ (9 : BitVec 4).toNat ∧
      (10 : BitVec 4).toNat ≤ 10 ∧ 11 ≤ (11 : BitVec 4).toNat ∧ 11 ≤ (15 : BitVec 4).toNat := by decide

/-- The programs: `m` 0, 9 and 20, the least `n`, and an index on either side of `m`. -/
theorem test_witness_ContractRefusesDepartures :
    State.reset.host = [] ∧ 1 ≤ 1 ∧ 2 ≤ 2 ∧ 0 + 3 ≤ 3 ∧ 20 + 3 ≤ 23 ∧ (9 ≤ 9 ∧ 9 < (10 : BitVec 4).toNat) ∧
      ¬ 9 < (9 : BitVec 4).toNat ∧ 11 ≤ (15 : BitVec 4).toNat := by decide

/-- An empty queue, and a READ that is not refused. -/
theorem test_witness_ContractAdmitsPrograms :
    State.reset.host = [] ∧
      hostRun 1 .afterReset { testState .done 10 .encrypt 7 (testKeys 0 0) with host := [.read] } =
        .ran { testState .done 10 .encrypt 7 (testKeys 0 0) with sampled := .outputs ⟨7, false, true, true⟩ } := by
  decide

theorem test_witness_NoOperationStops :
    (testState .expand 1 .encrypt 0 (testKeys 0 0)).ctr ≠ 0 ∧ State.reset.phase ≠ .expand := by decide

theorem test_witness_OnlyEdgesChangeRegisters :
    (Instr.rkRead 11).edges = 0 ∧ (Instr.aes128Decrypt 0 0).edges = 0 := by decide

theorem test_witness_RkIdxIsDontCare :
    (∃ t, exec (.reset true .decrypt 3) State.reset = .next t) ∧
      (∃ t, exec (.encrypt 15 1 2) State.reset = .next t) ∧ (∃ t, exec (.decrypt 0 1 2) State.reset = .next t) ∧
      (∃ t, exec (.nop .decrypt 15) State.reset = .next t) := ⟨⟨_, rfl⟩, ⟨_, rfl⟩, ⟨_, rfl⟩, ⟨_, rfl⟩⟩

/-- Each register does change somewhere: `op_reg`, `RK[0]` and `state_reg` at acceptance, `state_reg` in CIPHER,
`RK[1]` and `RK[10]` in EXPAND. -/
theorem test_witness_RegisterWriters :
    (Instr.decrypt 0 5 7).isReset = false ∧
      nextWith (exec (.decrypt 0 5 7) State.reset) (fun t =>
        t.opReg != .encrypt && t.rk.get 0 != 0 && t.stateReg != 0) = true ∧
      nextWith (exec (.nop .encrypt 0) (testState .cipher 0 .encrypt 0 (testKeys 0 7))) (fun t => t.stateReg != 0) =
        true ∧
      nextWith (exec (.nop .encrypt 0) (testState .expand 1 .encrypt 0 (testKeys 0 7))) (fun t => t.rk.get 1 != 0) =
        true ∧
      nextWith (exec (.nop .encrypt 0) (testState .expand 10 .encrypt 0 (testKeys 0 7))) (fun t =>
        t.rk.get 10 != 0) = true := by decide +kernel

/-- An edge from each phase, and the edges at which the phase moves on. -/
theorem test_witness_PhaseTransitions :
    nextWith (exec (.encrypt 0 0 0) State.reset) (fun t => t.phase == .expand) = true ∧
      nextWith (exec (.nop .encrypt 0) (testState .expand 10 .encrypt 0 (testKeys 0 0))) (fun t =>
        t.phase == .cipher) = true ∧
      nextWith (exec (.nop .encrypt 0) (testState .cipher 0 .decrypt 0 (testKeys 0 0))) (fun t => t.phase == .done) =
        true ∧
      nextWith (exec (.nop .encrypt 0) (testState .done 0 .decrypt 0 (testKeys 0 0))) (fun t => t.phase == .done) =
        true := by decide +kernel

/-- Two states alike in the sequencer that differ in every data register, and the four commands. -/
theorem test_witness_LatencyIndependentOfData :
    (cipherState .encrypt).phase = (testState .cipher 0 .encrypt 9 (testKeys 0 7)).phase ∧
      (cipherState .encrypt).ctr = (testState .cipher 0 .encrypt 9 (testKeys 0 7)).ctr ∧
      (cipherState .encrypt).opReg = (testState .cipher 0 .encrypt 9 (testKeys 0 7)).opReg ∧
      (∃ t, exec (.nop .encrypt 0) (cipherState .encrypt) = .next t) ∧
      (∃ t, exec (.nop .encrypt 0) (testState .cipher 0 .encrypt 9 (testKeys 0 7)) = .next t) ∧
      (∃ t, exec (.encrypt 0 1 2) (cipherState .encrypt) = .next t) ∧
      (∃ t, exec (.decrypt 0 1 2) (cipherState .encrypt) = .next t) ∧
      (∃ t, exec (.reset true .encrypt 0) (cipherState .encrypt) = .next t) :=
  ⟨rfl, rfl, rfl, ⟨_, rfl⟩, ⟨_, rfl⟩, ⟨_, rfl⟩, ⟨_, rfl⟩, ⟨_, rfl⟩⟩

theorem test_witness_StepKeepsSequencerInv :
    SequencerInv State.reset ∧ (∃ t, step State.reset = .next t) ∧
      SequencerInv (cipherState .decrypt) ∧ (∃ t, step (cipherState .decrypt) = .next t) :=
  ⟨test_inv_reset, ⟨_, rfl⟩, test_inv_cipherState _, ⟨_, rfl⟩⟩

theorem test_witness_DecodedStepsNeverStop :
    SequencerInv State.reset ∧
      ∀ f, .access f ∈ (State.reset.withFetchWord 8 0x20).host → ∃ i, decode f = .ok i :=
  ⟨test_inv_reset, fun f hf => ⟨.encrypt 0 0 0, by
    rw [HostItem.access.inj (List.mem_singleton.1 (show .access f ∈ [HostItem.access ⟨0x20, 0, 0, 0⟩] from hf))]
    rfl⟩⟩
end

section
/-! SUPPORT. What an access short of a reset does to the registers, said once (44_cipher.md R180), and from it the
statements about who writes which register, where the phase moves, and the sequencer's invariant
(10_state.md R20 to R27, R34). -/

namespace Sys2Proof.Machine

/-! ### Agreement of the registers -/

theorem SameRegisters.refl (s : State) : SameRegisters s s := ⟨rfl, rfl, rfl, rfl, rfl⟩

/-! ### What an access short of a reset can do to the registers -/

/-- One key step on the registers (42_key_schedule.md R130). -/
structure ExpandsTo (s t : State) : Prop where
  ctr_ne_zero : s.ctr ≠ 0
  opReg : t.opReg = s.opReg
  stateReg : t.stateReg = s.stateReg
  rk : t.rk = (s.setRoundKey s.ctr (nextRoundKey s)).rk
  phase : t.phase = .expand ∧ t.ctr.val = s.ctr.val + 1 ∨ s.ctr = 10 ∧ t.phase = .cipher

/-- One cipher step on every register but `state_reg` (44_cipher.md R184, R185). -/
structure CiphersTo (s t : State) : Prop where
  opReg : t.opReg = s.opReg
  rk : t.rk = s.rk
  phase : t.phase = .cipher ∨ s.ctr = lastCipherCtr s.opReg ∧ t.phase = .done ∧ t.ctr = s.ctr

/-- The next state `t` by what an access short of a reset did to the registers of `s`: the cases of
44_cipher.md R180, with the accesses that take no edge among those that keep every register. -/
inductive RunEffect (i : Instr) (s t : State) : Prop where
  | keep (h : SameRegisters s t)
  | accept (op : Op) (j : BitVec 4) (k b : Block) (ready : busy s = false)
      (command : i = .encrypt j k b ∨ i = .decrypt j k b) (h : SameRegisters (s.accept op k b) t)
  | expand (phase : s.phase = .expand) (h : ExpandsTo s t)
  | cipher (phase : s.phase = .cipher) (h : CiphersTo s t)

theorem expandsTo_of_expandStep {s t : State} (h : s.expandStep = .next t) (hp : s.phase = .expand) :
    ExpandsTo s t := by
  obtain ⟨hlt, h0, rfl⟩ | ⟨h10, rfl⟩ := expandStep_next h
  · exact ⟨h0, rfl, rfl, rfl, .inl ⟨hp, rfl⟩⟩
  · exact ⟨by simp [h10], rfl, rfl, by rw [h10], .inr ⟨h10, rfl⟩⟩

theorem ciphersTo_encryptStep {s : State} (hp : s.phase = .cipher) (ho : s.opReg = .encrypt) :
    CiphersTo s s.encryptStep := by
  obtain ⟨hop, hrk, -⟩ := encryptStep_frame s
  refine ⟨hop, hrk, ?_⟩
  by_cases h0 : s.ctr = 0
  · exact .inl (by rw [encryptStep_zero h0]; exact hp)
  by_cases hlt : s.ctr.val < 10
  · exact .inl (by rw [encryptStep_mid h0 hlt]; exact hp)
  · have h10 : s.ctr = 10 := Fin.ext (by have := s.ctr.isLt; simp; omega)
    refine .inr ⟨by rw [h10, ho]; rfl, ?_⟩
    rw [encryptStep_last h10]
    exact ⟨rfl, rfl⟩

theorem ciphersTo_decryptStep {s : State} (hp : s.phase = .cipher) (ho : s.opReg = .decrypt) :
    CiphersTo s s.decryptStep := by
  obtain ⟨hop, hrk, -⟩ := decryptStep_frame s
  refine ⟨hop, hrk, ?_⟩
  by_cases h10 : s.ctr = 10
  · exact .inl (by rw [decryptStep_first h10]; exact hp)
  by_cases h1 : 1 ≤ s.ctr.val
  · exact .inl (by rw [decryptStep_mid h10 h1]; exact hp)
  · have h0 : s.ctr = 0 := Fin.ext (by simp; omega)
    refine .inr ⟨by rw [h0, ho]; rfl, ?_⟩
    rw [decryptStep_last h0]
    exact ⟨rfl, rfl⟩

/-- An edge with `rst` = 0 and `start` = 1 is one of the two commands, with the command's operands. -/
theorem command_of_start {i : Instr} {e : EdgeInputs} (h : i.edgeInputs = some e) (hr : e.rst = false)
    (hs : e.start = true) : i = .encrypt e.rkIdx e.keyIn e.blockIn ∨ i = .decrypt e.rkIdx e.keyIn e.blockIn := by
  cases i <;> simp [Instr.edgeInputs] at h <;> subst h <;> simp at hr hs ⊢

/-- The edge of an access that is no reset has `rst` = 0. -/
theorem rst_of_isReset_eq_false {i : Instr} {e : EdgeInputs} (h : i.edgeInputs = some e) (hi : i.isReset = false) :
    e.rst = false := by
  cases i <;> simp [Instr.edgeInputs] at h <;> subst h
  case reset => simp [Instr.isReset] at hi
  all_goals rfl

/-- An access short of a reset has one of the four effects. -/
theorem runEffect_of_exec {i : Instr} {s t : State} (hi : i.isReset = false) (h : exec i s = .next t) :
    RunEffect i s t := by
  cases hp : i.edgeInputs with
  | none =>
    obtain ⟨idx, v, hx⟩ := exec_of_noEdge hp s
    cases h.symm.trans hx
    exact .keep (.refl s)
  | some e =>
    have hr := rst_of_isReset_eq_false hp hi
    rw [exec_of_edgeInputs hp] at h
    rcases clockEdge_next h with ⟨hr', -⟩ | ⟨-, hb, hs, rfl⟩ | ⟨-, -, -, rfl⟩ | ⟨-, hph, hx⟩ |
      ⟨-, hph, ho, rfl⟩ | ⟨-, hph, ho, rfl⟩
    · simp [hr] at hr'
    · exact .accept e.op e.rkIdx e.keyIn e.blockIn hb (command_of_start hp hr hs) (.refl _)
    · exact .keep (.refl s)
    · obtain ⟨hc, hop, hst, hrk, hto⟩ := expandsTo_of_expandStep hx hph
      exact .expand hph ⟨hc, hop, hst, hrk, hto⟩
    · obtain ⟨hop, hrk, hto⟩ := ciphersTo_encryptStep (s := s.countChange e.rkIdx) hph ho
      exact .cipher hph ⟨hop, hrk, hto⟩
    · obtain ⟨hop, hrk, hto⟩ := ciphersTo_decryptStep (s := s.countChange e.rkIdx) hph ho
      exact .cipher hph ⟨hop, hrk, hto⟩

/-- An access that is a reset leaves IDLE, `ctr` 0 and `op_reg` 0 (10_state.md R34). -/
theorem reset_of_exec {i : Instr} {s t : State} (hi : i.isReset = true) (h : exec i s = .next t) :
    t.phase = .idle ∧ t.ctr = 0 ∧ t.opReg = .encrypt := by
  cases i <;> simp [Instr.isReset] at hi
  case reset start op j =>
    rw [exec_of_edgeInputs rfl, clockEdge_reset rfl] at h
    cases h
    exact ⟨rfl, rfl, rfl⟩

/-! ### The schedule while it is being written (42_key_schedule.md R130) -/

/-- Whether entries are scheduled is a matter of the round-key file only. -/
theorem ScheduledBelow.of_rk {s t : State} {n : Nat} (h : ScheduledBelow s n) (hrk : t.rk = s.rk) :
    ScheduledBelow t n := by
  unfold ScheduledBelow at *
  rwa [hrk]

/-- `RK[0]` alone is always scheduled: it is the key. -/
theorem scheduledBelow_one (s : State) : ScheduledBelow s 1 := by
  intro i hi
  have h0 : i = 0 := Fin.ext (by simp; omega)
  rw [h0]
  rfl

/-- The round key of a key step is the next one of the schedule. -/
theorem nextRoundKey_of_scheduledBelow {s : State} (h0 : s.ctr ≠ 0) (h : ScheduledBelow s s.ctr.val) :
    nextRoundKey s = roundKey (s.rk.get 0) s.ctr.val := by
  have hpos : s.ctr.val ≠ 0 := fun e => h0 (Fin.ext e)
  obtain ⟨n, hn⟩ := Nat.exists_eq_succ_of_ne_zero hpos
  have hprev : (prevRound s.ctr).val = n := by simp [prevRound, hn]
  have hlt : (prevRound s.ctr).val < s.ctr.val := by omega
  unfold nextRoundKey roundBits
  rw [h _ hlt, hprev, hn]
  rfl

/-- A key step schedules one entry more. -/
theorem ExpandsTo.scheduledBelow_succ {s t : State} (ht : ExpandsTo s t) (h : ScheduledBelow s s.ctr.val) :
    ScheduledBelow t (s.ctr.val + 1) := by
  refine ScheduledBelow.of_rk (fun i hi => ?_) ht.rk
  rw [State.setRoundKey_get_ne s _ ht.ctr_ne_zero]
  by_cases hc : s.ctr = i
  · subst hc
    rw [State.setRoundKey_get_self, nextRoundKey_of_scheduledBelow ht.ctr_ne_zero h]
  · have hlt : i.val < s.ctr.val := by
      have : s.ctr.val ≠ i.val := fun e => hc (Fin.ext e)
      omega
    rw [State.setRoundKey_get_ne s _ hc, h i hlt]

/-! ### The sequencer's invariant -/

/-- The invariant speaks of registers only. -/
theorem SequencerInv.of_sameRegisters {s t : State} (hs : SequencerInv s) (h : SameRegisters s t) :
    SequencerInv t := by
  obtain ⟨hp, hc, ho, -, hrk⟩ := h
  have hv : rkValid t = rkValid s := by simp [rkValid, hp]
  exact
    { idle := by rw [← hp, ← hc, ← ho]; exact hs.idle
      expand := fun h => by
        obtain ⟨h1, hb⟩ := hs.expand (hp.trans h)
        rw [← hc]
        exact ⟨h1, hb.of_rk hrk.symm⟩
      valid := fun h => (hs.valid (hv ▸ h)).of_rk hrk.symm
      done := by rw [← hp, ← hc, ← ho]; exact hs.done }

/-- In IDLE the invariant is what a reset edge leaves. -/
theorem sequencerInv_of_idle {t : State} (hp : t.phase = .idle) (hc : t.ctr = 0) (ho : t.opReg = .encrypt) :
    SequencerInv t where
  idle _ := ⟨hc, ho⟩
  expand h := by simp [hp] at h
  valid h := by simp [rkValid, hp] at h
  done h := by simp [hp] at h

/-- In EXPAND the invariant is the part of the schedule that is written. -/
theorem sequencerInv_of_expand {t : State} (hp : t.phase = .expand) (hc : 1 ≤ t.ctr.val)
    (h : ScheduledBelow t t.ctr.val) : SequencerInv t where
  idle h := by simp [hp] at h
  expand _ := ⟨hc, h⟩
  valid h := by simp [rkValid, hp] at h
  done h := by simp [hp] at h

/-- In CIPHER the invariant is the whole schedule. -/
theorem sequencerInv_of_cipher {t : State} (hp : t.phase = .cipher) (h : ScheduledBelow t 11) : SequencerInv t where
  idle h := by simp [hp] at h
  expand h := by simp [hp] at h
  valid _ := h
  done h := by simp [hp] at h

/-- In DONE it is the whole schedule and the last counter of the command. -/
theorem sequencerInv_of_done {t : State} (hp : t.phase = .done) (h : ScheduledBelow t 11)
    (hc : t.ctr = lastCipherCtr t.opReg) : SequencerInv t where
  idle h := by simp [hp] at h
  expand h := by simp [hp] at h
  valid _ := h
  done _ := hc

theorem ExpandsTo.sequencerInv {s t : State} (h : ExpandsTo s t) (hp : s.phase = .expand) (hs : SequencerInv s) :
    SequencerInv t := by
  obtain ⟨-, hb⟩ := hs.expand hp
  have hsucc := h.scheduledBelow_succ hb
  obtain ⟨hpt, hct⟩ | ⟨h10, hpt⟩ := h.phase
  · exact sequencerInv_of_expand hpt (by omega) (hct ▸ hsucc)
  · rw [h10] at hsucc
    exact sequencerInv_of_cipher hpt hsucc

theorem CiphersTo.sequencerInv {s t : State} (h : CiphersTo s t) (hp : s.phase = .cipher) (hs : SequencerInv s) :
    SequencerInv t := by
  have hb : ScheduledBelow t 11 := (hs.valid ((rkValid_eq_true_iff s).2 (.inl hp))).of_rk h.rk
  obtain hpt | ⟨hlast, hpt, hct⟩ := h.phase
  · exact sequencerInv_of_cipher hpt hb
  · exact sequencerInv_of_done hpt hb (by rw [hct, h.opReg, hlast])

/-- Every access that gives a next state keeps the invariant. -/
theorem exec_keeps_sequencerInv {i : Instr} {s t : State} (hs : SequencerInv s) (h : exec i s = .next t) :
    SequencerInv t := by
  cases hi : i.isReset with
  | true =>
    obtain ⟨hp, hc, ho⟩ := reset_of_exec hi h
    exact sequencerInv_of_idle hp hc ho
  | false =>
    cases runEffect_of_exec hi h with
    | keep hk => exact hs.of_sameRegisters hk
    | accept op j k b _ _ ha =>
      exact (sequencerInv_of_expand rfl (by simp) (scheduledBelow_one _)).of_sameRegisters ha
    | expand hp he => exact he.sequencerInv hp hs
    | cipher hp hc => exact hc.sequencerInv hp hs

/-- Settles O59: an access keeps the invariant, and READ and the turns of WAIT change the queue besides. -/
theorem stepKeepsSequencerInv : Obligations.StepKeepsSequencerInv := by
  intro s t hs h
  rcases step_next h with ⟨-, hx⟩ | ⟨f, i, rest, -, -, hx⟩ | ⟨rest, -, rfl⟩ | ⟨rest, u, -, hx, rfl⟩
  · exact exec_keeps_sequencerInv hs hx
  · exact exec_keeps_sequencerInv (hs.of_sameRegisters (t := s.dropItem rest) (.refl s)) hx
  · exact hs.of_sameRegisters (.refl s)
  · have hu : SequencerInv u := exec_keeps_sequencerInv hs hx
    split
    · exact hu.of_sameRegisters (.refl u)
    · exact hu

/-- Settles O58: reset leaves IDLE, where the invariant asks for `ctr` 0 and `op_reg` 0 only. -/
theorem resetMeetsSequencerInv : Obligations.ResetMeetsSequencerInv := sequencerInv_of_idle rfl rfl rfl

/-! ### Who writes what, and where the phase moves -/

/-- Settles O54, by the four effects of an access short of a reset. -/
theorem registerWriters : Obligations.RegisterWriters := by
  intro i s t hi h
  cases runEffect_of_exec hi h with
  | keep hk =>
    obtain ⟨-, -, ho, hst, hrk⟩ := hk
    simp [← ho, ← hst, ← hrk]
  | accept op j k b hb hcmd ha =>
    obtain ⟨-, -, -, hst, hrk⟩ := ha
    rw [← hst, ← hrk]
    refine ⟨fun _ => ⟨hb, j, k, b, hcmd, State.accept_get_zero s op k b⟩, fun _ => .inr ⟨hb, j, k, b, hcmd, rfl⟩, ?_⟩
    intro r hr hne
    exact absurd (State.accept_get_ne s op k b hr) hne
  | expand hp he =>
    have h0 : t.rk.get 0 = s.rk.get 0 := by rw [he.rk, State.setRoundKey_get_ne s _ he.ctr_ne_zero]
    refine ⟨by simp [he.opReg, h0], by simp [he.stateReg], fun r _ hne => ⟨hp, ?_⟩⟩
    by_contra hrc
    rw [he.rk] at hne
    exact hne (State.setRoundKey_get_ne s _ (Ne.symm hrc))
  | cipher hp hc => exact ⟨by simp [hc.opReg, hc.rk], fun _ => .inl hp, by simp [hc.rk]⟩

/-- Settles O55, by the four effects of an access short of a reset: each phase has its own. -/
theorem phaseTransitions : Obligations.PhaseTransitions := by
  intro i s t hi h
  cases runEffect_of_exec hi h with
  | keep hk =>
    obtain ⟨hpt, -⟩ := hk
    rw [← hpt]
    exact ⟨.inl, .inl, .inl, .inl⟩
  | accept op j k b hb _ ha =>
    obtain ⟨hpt, -⟩ := ha
    rw [State.accept_phase] at hpt
    rcases (busy_eq_false_iff s).1 hb with hp | hp <;> simp [hp, ← hpt]
  | expand hp he =>
    obtain ⟨hpt, -⟩ | ⟨h10, hpt⟩ := he.phase
    · simp [hp, hpt]
    · simp [hp, hpt, h10]
  | cipher hp hc =>
    obtain hpt | ⟨hlast, hpt, -⟩ := hc.phase
    · simp [hp, hpt]
    · simp [hp, hpt, hlast]

/-! ### The reset edge, the one fault, the outputs -/

/-- A reserved index of the round-key read port reads zero (20_memory.md R55). -/
theorem rkPort_of_reserved (s : State) {j : BitVec 4} (h : 10 < j.toNat) : rkPort s j = 0 := by
  have hj : ¬ j.toNat < 11 := by omega
  simp [rkPort, hj]

/-- Settles O30: the reset edge is the first case of 44_cipher.md R180 in every state. -/
theorem resetEdgeState : Obligations.ResetEdgeState := by
  intro s start op i
  refine ⟨(s.countReset i).resetEdge, ?_, rfl, rfl, rfl, rfl, rfl, rfl, fun j hj => rkPort_of_reserved _ hj, ?_, ?_, ?_⟩
  · rw [exec_of_edgeInputs rfl, clockEdge_reset rfl]
  all_goals simp

/-- Settles O38: the edge is a key step, which has no round key to read at `ctr` 0. -/
theorem expandWithCounterZeroFaults : Obligations.ExpandWithCounterZeroFaults := by
  intro s i hp hc hi
  obtain ⟨e, he, hr⟩ := edgeInputs_of_isRunEdge hi
  rw [exec_of_edgeInputs he, clockEdge_expand hr hp]
  exact expandStep_zero (s := s.countChange e.rkIdx) hc

/-- Settles O41: the outputs by phase; the schedule is the invariant's. -/
theorem statusOutputs : Obligations.StatusOutputs := by
  intro s
  refine ⟨busy_eq_true_iff s, done_eq_true_iff s, rkValid_eq_true_iff s, ?_, rfl, ?_⟩
  · rintro ⟨hb, hd⟩
    rcases (busy_eq_true_iff s).1 hb with hp | hp <;> simp [done, hp] at hd
  · intro hs hv
    exact schedule_eq_keyExpand fun i => hs.valid hv i i.isLt

/-- Only an access that takes an edge drives the edge's input ports. -/
theorem edgeInputs_eq_none_of_edges {i : Instr} (h : i.edges = 0) : i.edgeInputs = none := by
  cases i <;> simp [Instr.edges, Instr.edgeInputs] at h ⊢

/-- Settles O52: an access without an edge drives at most `rk_idx` and samples one value. -/
theorem onlyEdgesChangeRegisters : Obligations.OnlyEdgesChangeRegisters := by
  intro i s hi
  obtain ⟨idx, v, hx⟩ := exec_of_noEdge (edgeInputs_eq_none_of_edges hi) s
  exact ⟨_, hx, .refl s, rfl, rfl, rfl, rfl, rfl, rfl⟩

end Sys2Proof.Machine
end

section
/-! SUPPORT. The family 20_memory.md: a Block by its Words (R51), the round-key read port (R55), and reads that
repeat until an edge changes a register (R57). -/

namespace Sys2Proof.Machine

/-! ### A Block and its Words (20_memory.md R50, R51) -/

/-- Bit j of Block byte i, counted from the byte's least significant bit (20_memory.md R50). -/
theorem blockByte_getLsbD (b : Block) (i : Fin 16) (j : Fin 8) :
    (blockByte b i).getLsbD j.val = b.getLsbD (120 - 8 * i.val + j.val) := by
  simp [blockByte]

/-- Byte k of Word j of a Block is Block byte 4j + k: cell s[k][j] of the Square (20_memory.md R51). -/
theorem wordByte_blockWord (b : Block) (j k : Fin 4) : wordByte (blockWord b j) k = blockByte b (cellIndex k j) := by
  have hoff : 120 - 8 * (4 * j.val + k.val) = 96 - 32 * j.val + (24 - 8 * k.val) := by omega
  ext n hn
  have hin : 24 - 8 * k.val + n < 32 := by omega
  simp [wordByte, blockWord, blockByte, cellIndex, hin, hoff, Nat.add_assoc]

/-- Blocks with the same Words are the same Block. -/
theorem block_ext_words {b c : Block} (h : ∀ j, blockWord b j = blockWord c j) : b = c := by
  apply block_ext_cells
  intro k j
  rw [cell, cell, ← wordByte_blockWord, ← wordByte_blockWord, h]

/-- A Block is put back from its Words. -/
theorem blockOfWords_blockWord (b : Block) :
    blockOfWords (blockWord b 0) (blockWord b 1) (blockWord b 2) (blockWord b 3) = b := by
  apply block_ext_words
  intro j
  fin_cases j
  · exact blockWord_blockOfWords_0 ..
  · exact blockWord_blockOfWords_1 ..
  · exact blockWord_blockOfWords_2 ..
  · exact blockWord_blockOfWords_3 ..

/-- Settles O9: each view reads bits of the one value, and Blocks that agree in a view are the same Block. -/
theorem blockViewsAgree : Obligations.BlockViewsAgree := fun b =>
  ⟨blockByte_getLsbD b, wordByte_blockWord b, fun _ _ => rfl, block_ext (blockByte_blockOf _),
    blockOfWords_blockWord b, block_ext_cells (cell_blockOfCells _)⟩

/-! ### The round-key read (20_memory.md R55; 70_reset_and_hazards.md R229) -/

/-- What RK_READ at an index samples. -/
def rkReadSample (s : State) (j : BitVec 4) : Block := sampleRkOut (s.driveRkIdx j)

/-- RK_READ samples the read port's value while `rk_valid` is 1 and at a reserved index, and a free value otherwise. -/
theorem rkReadSample_eq (s : State) (j : BitVec 4) :
    rkReadSample s j =
      if rkValid s || decide (10 < j.toNat) then rkPort s j else Config.freeRkOut s.changes j := rfl

/-- RK_READ drives `rk_idx`, samples one Block, and writes no register. -/
theorem exec_rkRead (s : State) (j : BitVec 4) :
    exec (.rkRead j) s = .next { s with rkIdx := j, sampled := .block (rkReadSample s j) } := rfl

/-- A defined index of the round-key read port reads its round key. -/
theorem rkPort_of_defined (s : State) {j : BitVec 4} (h : j.toNat < 11) : rkPort s j = s.rk.get ⟨j.toNat, h⟩ := by
  simp [rkPort, h]

/-- While `rk_valid` is 1, RK_READ samples the read port. -/
theorem rkReadSample_of_rkValid {s : State} (h : rkValid s = true) (j : BitVec 4) :
    rkReadSample s j = rkPort s j := by
  simp [rkReadSample_eq, h]

/-- At a reserved index RK_READ samples zero, valid or not. -/
theorem rkReadSample_of_reserved (s : State) {j : BitVec 4} (h : 10 < j.toNat) : rkReadSample s j = 0 := by
  simp [rkReadSample_eq, rkPort_of_reserved, h]

/-- Settles O39: the sample is the read port's where `rk_valid` is 1 or the index is reserved, and it depends
neither on the index driven before nor on the last sample. -/
theorem roundKeyRead : Obligations.RoundKeyRead := fun s i =>
  ⟨rkReadSample s i, exec_rkRead s i,
    fun h hv => (rkReadSample_of_rkValid hv i).trans (rkPort_of_defined s h),
    fun h => rkReadSample_of_reserved s h,
    fun h => rkPort_of_defined _ h,
    fun h => rkPort_of_reserved _ h,
    rfl⟩

/-! ### Reads repeat until a register changes (20_memory.md R57) -/

/-- An edge in EXPAND moves `ctr` or the phase. -/
theorem ExpandsTo.not_sameRegisters {s t : State} (h : ExpandsTo s t) (hp : s.phase = .expand) :
    ¬ SameRegisters s t := by
  rintro ⟨hpt, hct, -⟩
  obtain ⟨-, hc⟩ | ⟨-, hc⟩ := h.phase
  · rw [hct] at hc; omega
  · simp [← hpt, hp] at hc

/-- An encryption step moves `ctr` or the phase. -/
theorem not_sameRegisters_encryptStep {s : State} (hp : s.phase = .cipher) : ¬ SameRegisters s s.encryptStep := by
  rintro ⟨hpt, hct, -⟩
  by_cases h0 : s.ctr = 0
  · simp [encryptStep_zero h0, h0] at hct
  by_cases hlt : s.ctr.val < 10
  · have hv := congrArg Fin.val hct
    simp [encryptStep_mid h0 hlt, nextRound] at hv
  · have h10 : s.ctr = 10 := Fin.ext (by have := s.ctr.isLt; simp; omega)
    simp [encryptStep_last h10, hp] at hpt

/-- A decryption step moves `ctr` or the phase. -/
theorem not_sameRegisters_decryptStep {s : State} (hp : s.phase = .cipher) : ¬ SameRegisters s s.decryptStep := by
  rintro ⟨hpt, hct, -⟩
  by_cases h10 : s.ctr = 10
  · simp [decryptStep_first h10, h10] at hct
  by_cases h1 : 1 ≤ s.ctr.val
  · have hv := congrArg Fin.val hct
    simp [decryptStep_mid h10 h1, prevRound] at hv
    omega
  · have h0 : s.ctr = 0 := Fin.ext (by simp; omega)
    simp [decryptStep_last h0, hp] at hpt

/-- An edge that leaves every register as before counts no change: of the six cases of 44_cipher.md R180 only the
reset in IDLE and the hold can do so. -/
theorem changes_of_clockEdge {e : EdgeInputs} {s t : State} (h : clockEdge e s = .next t) (hr : SameRegisters s t) :
    t.changes = s.changes := by
  rcases clockEdge_next h with ⟨-, rfl⟩ | ⟨-, hb, -, rfl⟩ | ⟨-, -, -, rfl⟩ | ⟨-, hp, hx⟩ | ⟨-, hp, -, rfl⟩ |
    ⟨-, hp, -, rfl⟩
  · have hidle : s.phase = .idle := hr.1
    simp [hidle]
  · have hexp : s.phase = .expand := hr.1
    rcases (busy_eq_false_iff s).1 hb with hp | hp <;> simp [hp] at hexp
  · rfl
  · exact absurd hr ((expandsTo_of_expandStep hx hp).not_sameRegisters hp)
  · exact absurd hr (not_sameRegisters_encryptStep (s := s.countChange e.rkIdx) hp)
  · exact absurd hr (not_sameRegisters_decryptStep (s := s.countChange e.rkIdx) hp)

/-- The same of every access: one without an edge counts no change at all. -/
theorem changes_of_exec {i : Instr} {s t : State} (h : exec i s = .next t) (hr : SameRegisters s t) :
    t.changes = s.changes := by
  cases hi : i.edgeInputs with
  | some e => exact changes_of_clockEdge (exec_of_edgeInputs hi s ▸ h) hr
  | none =>
    obtain ⟨idx, v, hx⟩ := exec_of_noEdge hi s
    cases h.symm.trans hx
    rfl

/-- The same of every step: the queue is no register, and taking an item off it counts no change. -/
theorem changes_of_step {s t : State} (h : step s = .next t) (hr : SameRegisters s t) : t.changes = s.changes := by
  rcases step_next h with ⟨-, hx⟩ | ⟨f, i, rest, -, -, hx⟩ | ⟨rest, -, rfl⟩ | ⟨rest, u, -, hx, rfl⟩
  · exact changes_of_exec hx hr
  · exact changes_of_exec (s := s.dropItem rest) hx hr
  · rfl
  · have hu : SameRegisters s u := by split at hr <;> exact hr
    have hc : u.changes = s.changes := changes_of_exec hx hu
    split <;> exact hc

section
variable {s t : State} (hr : SameRegisters s t) (hc : t.changes = s.changes)
include hr hc

/-- READ depends on the registers and the count of changes only. -/
theorem hostRead_eq_of_sameRegisters : hostRead t = hostRead s := by
  obtain ⟨hp, -, -, hst, -⟩ := hr
  simp [hostRead, sampleBlockOut, blockOut, busy, done, rkValid, hp, hst, hc]

/-- So does RK_READ at every index. -/
theorem rkReadSample_eq_of_sameRegisters (j : BitVec 4) : rkReadSample t j = rkReadSample s j := by
  obtain ⟨hp, -, -, -, hrk⟩ := hr
  have hv : rkValid t = rkValid s := by simp [rkValid, hp]
  have hport : rkPort t j = rkPort s j := by unfold rkPort; rw [hrk]
  rw [rkReadSample_eq, rkReadSample_eq, hv, hport, hc]

end

/-- Settles O40: where the registers are as before, so is the count of changes that the free values are applied
to, and a read depends on nothing else. -/
theorem readsRepeatUntilStateChanges : Obligations.ReadsRepeatUntilStateChanges := by
  intro i s t h hr
  have hc : t.changes = s.changes := h.elim (changes_of_exec · hr) (changes_of_step · hr)
  refine ⟨hostRead_eq_of_sameRegisters hr hc, fun j => ⟨rkReadSample s j, exec_rkRead s j, ?_⟩⟩
  rw [exec_rkRead, rkReadSample_eq_of_sameRegisters hr hc]

end Sys2Proof.Machine
end

section
/-! SUPPORT. The family 30_encoding.md, from bits to operations and back: frames and their bytes, the control word,
and the step by the next item of the queue. -/

namespace Sys2Proof

open Machine

/-! ### Frames and their bytes (log entry 10) -/

/-- A Block is put back from its bytes (20_memory.md R50). -/
@[simp] theorem blockOfBytes_blockToBytes (b : Block) : blockOfBytes (blockToBytes b) = b := by
  apply block_ext
  intro i
  rw [blockByte_blockOfBytes, blockToBytes_eq]
  simp

@[simp] theorem length_blockToBytes (b : Block) : (blockToBytes b).length = 16 := by
  simp [blockToBytes]

/-- A frame is put back from its bytes. -/
@[simp] theorem Frame.ofBytes_toBytes (f : Frame) : Frame.ofBytes f.toBytes = .ok f := by
  simp [Frame.ofBytes, Frame.toBytes]

/-- Settles O1: the frame is put back from its bytes, and it decodes to the operation it was made of. -/
theorem decodeOfEncodedBytes : Obligations.DecodeOfEncodedBytes := by
  intro i
  unfold decodeBytes encodeBytes
  rw [Frame.ofBytes_toBytes]
  exact Laws.FrameRoundTrip.all i

section
variable {f : Frame} {i : Instr} {n : Nat}

/-- A frame without an edge is its number and its operands. -/
theorem Frame.eq_unitFrame {sel : BitVec 8} {a b : Block} (h7 : f.head.getLsbD 7 = true)
    (hn : (f.head.extractLsb' 0 7).toNat = n) (hsel : f.sel = sel) (ha : f.opA = a) (hb : f.opB = b) :
    f = unitFrame (BitVec.ofNat 7 n) sel a b := by
  have hcode : BitVec.ofNat 7 n = f.head.extractLsb' 0 7 := by rw [← hn, BitVec.ofNat_toNat, BitVec.setWidth_eq]
  have hhead : 1#1 ++ BitVec.ofNat 7 n = f.head := by
    rw [hcode]
    generalize f.head = head at h7
    revert head
    decide
  subst hsel ha hb
  rw [unitFrame, hhead]

section
variable (h7 : f.head.getLsbD 7 = true) (hn : (f.head.extractLsb' 0 7).toNat = n)
include h7 hn

/-! A frame of each shape is the encoding of what it decodes to, where the shape's operations are encoded with the
frame's number. -/

theorem encode_of_decodeByteByte {mk : Byte → Byte → Instr} (h : decodeByteByte mk f = .ok i)
    (hmk : ∀ a b, encode (mk a b) = unitFrame (BitVec.ofNat 7 n) 0 (byteField a) (byteField b)) : encode i = f := by
  obtain ⟨a, b, rfl, hsel, ha, hb⟩ := decodeByteByte_ok h
  rw [hmk, ← Frame.eq_unitFrame h7 hn hsel ha hb]

theorem encode_of_decodeByte {mk : Byte → Instr} (h : decodeByte mk f = .ok i)
    (hmk : ∀ x, encode (mk x) = unitFrame (BitVec.ofNat 7 n) 0 (byteField x) 0) : encode i = f := by
  obtain ⟨x, rfl, hsel, ha, hb⟩ := decodeByte_ok h
  rw [hmk, ← Frame.eq_unitFrame h7 hn hsel ha hb]

theorem encode_of_decodeIndex {mk : BitVec 4 → Instr} (h : decodeIndex mk f = .ok i)
    (hmk : ∀ r, encode (mk r) = unitFrame (BitVec.ofNat 7 n) (indexField r) 0 0) : encode i = f := by
  obtain ⟨r, rfl, hsel, ha, hb⟩ := decodeIndex_ok h
  rw [hmk, ← Frame.eq_unitFrame h7 hn hsel ha hb]

theorem encode_of_decodeWord {mk : Word → Instr} (h : decodeWord mk f = .ok i)
    (hmk : ∀ w, encode (mk w) = unitFrame (BitVec.ofNat 7 n) 0 (wordField w) 0) : encode i = f := by
  obtain ⟨w, rfl, hsel, ha, hb⟩ := decodeWord_ok h
  rw [hmk, ← Frame.eq_unitFrame h7 hn hsel ha hb]

theorem encode_of_decodeWordIndex {mk : Word → BitVec 4 → Instr} (h : decodeWordIndex mk f = .ok i)
    (hmk : ∀ w r, encode (mk w r) = unitFrame (BitVec.ofNat 7 n) (indexField r) (wordField w) 0) : encode i = f := by
  obtain ⟨w, r, rfl, hsel, ha, hb⟩ := decodeWordIndex_ok h
  rw [hmk, ← Frame.eq_unitFrame h7 hn hsel ha hb]

theorem encode_of_decodeBlockIndex {mk : Block → BitVec 4 → Instr} (h : decodeBlockIndex mk f = .ok i)
    (hmk : ∀ k r, encode (mk k r) = unitFrame (BitVec.ofNat 7 n) (indexField r) k 0) : encode i = f := by
  obtain ⟨r, rfl, hsel, hb⟩ := decodeBlockIndex_ok h
  rw [hmk, ← Frame.eq_unitFrame h7 hn hsel rfl hb]

theorem encode_of_decodeBlock {mk : Block → Instr} (h : decodeBlock mk f = .ok i)
    (hmk : ∀ b, encode (mk b) = unitFrame (BitVec.ofNat 7 n) 0 b 0) : encode i = f := by
  obtain ⟨rfl, hsel, hb⟩ := decodeBlock_ok h
  rw [hmk, ← Frame.eq_unitFrame h7 hn hsel rfl hb]

theorem encode_of_decodeBlockBlock {mk : Block → Block → Instr} (h : decodeBlockBlock mk f = .ok i)
    (hmk : ∀ b k, encode (mk b k) = unitFrame (BitVec.ofNat 7 n) 0 b k) : encode i = f := by
  obtain ⟨rfl, hsel⟩ := decodeBlockBlock_ok h
  rw [hmk, ← Frame.eq_unitFrame h7 hn hsel rfl rfl]

theorem encode_of_decodeRound {mk0 mk1 : Block → Block → Instr} (h : decodeRound mk0 mk1 f = .ok i)
    (hmk0 : ∀ b k, encode (mk0 b k) = unitFrame (BitVec.ofNat 7 n) 0 b k)
    (hmk1 : ∀ b k, encode (mk1 b k) = unitFrame (BitVec.ofNat 7 n) 1 b k) : encode i = f := by
  obtain ⟨rfl, hsel⟩ | ⟨rfl, hsel⟩ := decodeRound_ok h
  · rw [hmk0, ← Frame.eq_unitFrame h7 hn hsel rfl rfl]
  · rw [hmk1, ← Frame.eq_unitFrame h7 hn hsel rfl rfl]

end

/-- A frame without an edge that decodes by its number is the encoding of what it decodes to: the cases are the rows
of `decodeUnit` in its order, by the shape of their operands. -/
theorem encode_of_decodeUnit (h7 : f.head.getLsbD 7 = true) (h : decodeUnit f = .ok i) : encode i = f := by
  unfold decodeUnit at h
  split at h <;> rename_i hn
  case h_24 => cases h
  case h_1 | h_7 => exact encode_of_decodeIndex h7 hn h fun _ => rfl
  case h_2 | h_3 | h_4 => exact encode_of_decodeByteByte h7 hn h fun _ _ => rfl
  case h_5 | h_6 => exact encode_of_decodeByte h7 hn h fun _ => rfl
  case h_8 | h_9 => exact encode_of_decodeWord h7 hn h fun _ => rfl
  case h_10 => exact encode_of_decodeWordIndex h7 hn h fun _ _ => rfl
  case h_11 => exact encode_of_decodeBlockIndex h7 hn h fun _ _ => rfl
  case h_13 | h_22 | h_23 => exact encode_of_decodeBlockBlock h7 hn h fun _ _ => rfl
  case h_20 | h_21 => exact encode_of_decodeRound h7 hn h (fun _ _ => rfl) fun _ _ => rfl
  all_goals exact encode_of_decodeBlock h7 hn h fun _ => rfl

end

/-- Settles O2: a frame with bit 7 of `head` set is decoded by its number, and each shape of operands is encoded as
it was found. -/
theorem encodeOfDecodedFrame : Obligations.EncodeOfDecodedFrame := by
  intro f i h7 h
  rw [decode, if_pos h7] at h
  exact encode_of_decodeUnit h7 h

/-! ### The control word (30_encoding.md R72, R73) -/

section
variable {cw : BitVec 7} (k b : Block)

theorem decodeControlWord_reset (h6 : cw.getLsbD 6 = true) :
    decodeControlWord cw k b = .reset (cw.getLsbD 5) (Op.ofBool (cw.getLsbD 4)) (cw.extractLsb' 0 4) := by
  simp only [decodeControlWord, h6]; rfl

theorem decodeControlWord_encrypt (h6 : cw.getLsbD 6 = false) (h5 : cw.getLsbD 5 = true) (h4 : cw.getLsbD 4 = false) :
    decodeControlWord cw k b = .encrypt (cw.extractLsb' 0 4) k b := by
  simp only [decodeControlWord, h6, h5, h4]; rfl

theorem decodeControlWord_decrypt (h6 : cw.getLsbD 6 = false) (h5 : cw.getLsbD 5 = true) (h4 : cw.getLsbD 4 = true) :
    decodeControlWord cw k b = .decrypt (cw.extractLsb' 0 4) k b := by
  simp only [decodeControlWord, h6, h5, h4]; rfl

theorem decodeControlWord_nop (h6 : cw.getLsbD 6 = false) (h5 : cw.getLsbD 5 = false) :
    decodeControlWord cw k b = .nop (Op.ofBool (cw.getLsbD 4)) (cw.extractLsb' 0 4) := by
  simp only [decodeControlWord, h6, h5]; rfl

end

/-- Settles O3: the decoder's four cases; while `busy` the edge of either command is the NOP's (44_cipher.md R183). -/
theorem controlWordSelectsCommand : Obligations.ControlWordSelectsCommand := by
  intro cw k b s
  refine ⟨fun h6 => ?_, fun h6 h5 _ h4 => ?_, fun h6 h5 _ h4 => ?_, fun h6 h5 hb => ?_, fun h6 h5 => ?_⟩
  · rw [decodeControlWord_reset k b h6]
  · rw [decodeControlWord_encrypt k b h6 h5 h4]
  · rw [decodeControlWord_decrypt k b h6 h5 h4]
  · cases h4 : cw.getLsbD 4 with
    | false =>
      rw [decodeControlWord_encrypt k b h6 h5 h4, exec_of_edgeInputs rfl, clockEdge_busy rfl hb]
    | true =>
      rw [decodeControlWord_decrypt k b h6 h5 h4, exec_of_edgeInputs rfl, clockEdge_busy rfl hb]
  · rw [decodeControlWord_nop k b h6 h5]

/-! The bits each row of the operation map looks at (30_encoding.md R80). -/

theorem covers_reset (cw : BitVec 7) : CwRow.covers ⟨"RESET", 0x40, 0x40⟩ cw = cw.getLsbD 6 := by
  revert cw; decide

theorem covers_encrypt (cw : BitVec 7) :
    CwRow.covers ⟨"ENCRYPT", 0x20, 0x70⟩ cw = (!cw.getLsbD 6 && cw.getLsbD 5 && !cw.getLsbD 4) := by
  revert cw; decide

theorem covers_decrypt (cw : BitVec 7) :
    CwRow.covers ⟨"DECRYPT", 0x30, 0x70⟩ cw = (!cw.getLsbD 6 && cw.getLsbD 5 && cw.getLsbD 4) := by
  revert cw; decide

theorem covers_nop (cw : BitVec 7) :
    CwRow.covers ⟨"NOP", 0x00, 0x60⟩ cw = (!cw.getLsbD 6 && !cw.getLsbD 5) := by
  revert cw; decide

/-- Settles O4: row and command depend on the same three bits, and every value of them has one of each. -/
theorem controlWordRowsPartitionWords : Obligations.ControlWordRowsPartitionWords := by
  intro cw k b
  simp only [cwRows, List.filter, covers_reset, covers_encrypt, covers_decrypt, covers_nop]
  cases h6 : cw.getLsbD 6 with
  | true => rw [decodeControlWord_reset k b h6]; rfl
  | false =>
    cases h5 : cw.getLsbD 5 with
    | false => rw [decodeControlWord_nop k b h6 h5]; rfl
    | true =>
      cases h4 : cw.getLsbD 4 with
      | false => rw [decodeControlWord_encrypt k b h6 h5 h4]; rfl
      | true => rw [decodeControlWord_decrypt k b h6 h5 h4]; rfl

/-- A table word that is the frame of an operation decodes to it. -/
theorem decodeTableWord_of_encode {nbits w : Nat} {i : Instr} (h : Frame.ofTableWord nbits w = encode i) :
    decodeTableWord nbits w = some i := by
  rw [decodeTableWord, h, Laws.FrameRoundTrip.all i]

/-- Settles O5: each word and each frame is the encoding of its operation. -/
theorem specWordsDecode : Obligations.SpecWordsDecode := by
  refine ⟨decodeTableWord_of_encode (by decide), decodeTableWord_of_encode (by decide),
    decodeTableWord_of_encode (by decide), decodeTableWord_of_encode (by decide),
    decodeTableWord_of_encode (by decide), fun b k => ⟨?_, ?_, ?_, ?_⟩⟩
  · exact Laws.FrameRoundTrip.encRound b k
  · exact Laws.FrameRoundTrip.encRoundFinal b k
  · exact Laws.FrameRoundTrip.decRound b k
  · exact Laws.FrameRoundTrip.decRoundFirst b k

/-! ### The step by the next item (30_encoding.md R79; log entries 11, 22) -/

/-- Settles O6: an access by what its frame decodes to, and the empty queue. -/
theorem stepPerformsDecodedAccess : Obligations.StepPerformsDecodedAccess := by
  intro s
  refine ⟨fun f rest i hq hd => ?_, fun f rest e hq hd => ?_, step_of_empty⟩
  · rw [step_of_access hq, hd]; rfl
  · rw [step_of_access hq, hd]

/-- Settles O7: the frame of an operation decodes to it. -/
theorem stepPerformsEncodedAccess : Obligations.StepPerformsEncodedAccess :=
  fun _ _ _ hq => step_of_ofInstr hq

/-- A turn of WAIT whose edge gives a next state with `done` 1: the item goes. -/
theorem step_wait_of_done {s t : State} {rest : List HostItem} (hq : s.host = .wait :: rest)
    (h : exec waitAccess s = .next t) (hd : done t = true) : step s = .next { t with host := rest } := by
  rw [step_of_wait hq, waitStep_next h, if_pos hd]; rfl

/-- A turn of WAIT whose edge gives a next state with `done` 0: the item stays. -/
theorem step_wait_of_not_done {s t : State} {rest : List HostItem} (hq : s.host = .wait :: rest)
    (h : exec waitAccess s = .next t) (hd : done t = false) : step s = .next t := by
  rw [step_of_wait hq, waitStep_next h, hd]; rfl

/-- READ samples `state_reg` while `done` is 1 (70_reset_and_hazards.md R228). -/
theorem hostRead_blockOut_of_done {s : State} (h : done s = true) : (hostRead s).blockOut = s.stateReg := by
  simp [hostRead, sampleBlockOut, blockOut, h]

/-- Settles O8: READ, then a turn of WAIT by what `done` is after its edge. -/
theorem stepPerformsReadAndWait : Obligations.StepPerformsReadAndWait := by
  intro s rest
  refine ⟨fun hq => ⟨step_of_read hq, hostRead_blockOut_of_done⟩, fun hq t hx => ⟨fun hd => ?_, fun hd => ?_⟩⟩
  · exact step_wait_of_done hq hx hd
  · exact step_wait_of_not_done hq hx hd

end Sys2Proof

namespace Sys2Proof.Machine

/-! ### rk_idx at an edge (30_encoding.md R72) -/

/-- An outcome with another value on the wire `rk_idx`. -/
def withRkIdx (j : BitVec 4) : Host.Outcome State Fault Refusal → Host.Outcome State Fault Refusal
  | .next s => .next (s.driveRkIdx j)
  | .fault r => .fault r
  | .refused r => .refused r

theorem expandStep_driveRkIdx (s : State) (j : BitVec 4) :
    (s.driveRkIdx j).expandStep = withRkIdx j s.expandStep := by
  by_cases h0 : s.ctr = 0
  · rw [expandStep_zero h0, expandStep_zero (s := s.driveRkIdx j) h0]; rfl
  by_cases hlt : s.ctr.val < 10
  · rw [expandStep_lt h0 hlt, expandStep_lt (s := s.driveRkIdx j) h0 hlt]; rfl
  · have h10 : s.ctr = 10 := Fin.ext (by have := s.ctr.isLt; simp; omega)
    rw [expandStep_last h10, expandStep_last (s := s.driveRkIdx j) h10]; rfl

theorem encryptStep_driveRkIdx (s : State) (j : BitVec 4) :
    (s.driveRkIdx j).encryptStep = s.encryptStep.driveRkIdx j := by
  by_cases h0 : s.ctr = 0
  · rw [encryptStep_zero h0, encryptStep_zero (s := s.driveRkIdx j) h0]; rfl
  by_cases hlt : s.ctr.val < 10
  · rw [encryptStep_mid h0 hlt, encryptStep_mid (s := s.driveRkIdx j) h0 hlt]; rfl
  · have h10 : s.ctr = 10 := Fin.ext (by have := s.ctr.isLt; simp; omega)
    rw [encryptStep_last h10, encryptStep_last (s := s.driveRkIdx j) h10]; rfl

theorem decryptStep_driveRkIdx (s : State) (j : BitVec 4) :
    (s.driveRkIdx j).decryptStep = s.decryptStep.driveRkIdx j := by
  by_cases h10 : s.ctr = 10
  · rw [decryptStep_first h10, decryptStep_first (s := s.driveRkIdx j) h10]; rfl
  by_cases h1 : 1 ≤ s.ctr.val
  · rw [decryptStep_mid h10 h1, decryptStep_mid (s := s.driveRkIdx j) h10 h1]; rfl
  · have h0 : s.ctr = 0 := Fin.ext (by simp; omega)
    rw [decryptStep_last h0, decryptStep_last (s := s.driveRkIdx j) h0]; rfl

/-- Another `rk_idx` at an edge changes what is on the wire after it and nothing else. -/
theorem clockEdge_withRkIdx (rst start : Bool) (op : Op) (k b : Block) (i j : BitVec 4) (s : State) :
    clockEdge ⟨rst, start, op, k, b, j⟩ s = withRkIdx j (clockEdge ⟨rst, start, op, k, b, i⟩ s) := by
  cases rst with
  | true =>
    rw [clockEdge_reset rfl, clockEdge_reset rfl]
    simp only [State.countReset]
    split <;> rfl
  | false =>
    cases hb : busy s with
    | false =>
      cases start with
      | true => rw [clockEdge_accept rfl hb rfl, clockEdge_accept rfl hb rfl]; rfl
      | false => rw [clockEdge_hold rfl hb rfl, clockEdge_hold rfl hb rfl]; rfl
    | true =>
      rcases (busy_eq_true_iff s).1 hb with hp | hp
      · rw [clockEdge_expand rfl hp, clockEdge_expand rfl hp]
        exact expandStep_driveRkIdx (s.countChange i) j
      · cases ho : s.opReg with
        | encrypt =>
          rw [clockEdge_encrypt rfl hp ho, clockEdge_encrypt rfl hp ho]
          exact congrArg _ (encryptStep_driveRkIdx (s.countChange i) j)
        | decrypt =>
          rw [clockEdge_decrypt rfl hp ho, clockEdge_decrypt rfl hp ho]
          exact congrArg _ (decryptStep_driveRkIdx (s.countChange i) j)

/-- So two edges that differ only in it leave the same registers. -/
theorem sameRegisters_of_rkIdx {x y : Instr} {rst start : Bool} {op : Op} {k b : Block} {i j : BitVec 4}
    {s t u : State} (hx : x.edgeInputs = some ⟨rst, start, op, k, b, i⟩)
    (hy : y.edgeInputs = some ⟨rst, start, op, k, b, j⟩) (ht : exec x s = .next t) (hu : exec y s = .next u) :
    SameRegisters t u := by
  rw [exec_of_edgeInputs hx] at ht
  rw [exec_of_edgeInputs hy, clockEdge_withRkIdx rst start op k b i j, ht] at hu
  cases hu
  exact .refl t

/-- Settles O53: each command is an edge. -/
theorem rkIdxIsDontCare : Obligations.RkIdxIsDontCare := fun _ _ _ _ _ _ _ _ _ =>
  ⟨sameRegisters_of_rkIdx rfl rfl, sameRegisters_of_rkIdx rfl rfl, sameRegisters_of_rkIdx rfl rfl,
    sameRegisters_of_rkIdx rfl rfl⟩

end Sys2Proof.Machine
end

section
/-! SUPPORT. A running command, edge by edge from its acceptance to its result (42_key_schedule.md R130; 44_cipher.md
R184 to R189), and WAIT after it (30_encoding.md R79). -/

namespace Sys2Proof

/-- The operation of a command. -/
def Op.command : Op → BitVec 4 → Block → Block → Instr
  | .encrypt => .encrypt
  | .decrypt => .decrypt

/-- The host line of a command. -/
def Op.line : Op → Block → Block → Machine.HostLine
  | .encrypt => .enc
  | .decrypt => .dec

/-- What a command leaves on `block_out`: that function of its operands (44_cipher.md R186, R187). -/
def Op.result : Op → Block → Block → Block
  | .encrypt, k, b => Machine.aes128Encrypt b k
  | .decrypt, k, b => Machine.aes128Decrypt b k

theorem Op.edgeInputs_command (op : Op) (i : BitVec 4) (k b : Block) :
    (op.command i k b).edgeInputs = some ⟨false, true, op, k, b, i⟩ := by
  cases op <;> rfl

@[simp] theorem Op.items_line (op : Op) (k b : Block) : (op.line k b).items = [.ofInstr (op.command 0 k b)] := by
  cases op <;> rfl

end Sys2Proof

namespace Sys2Proof.Machine

variable {op : Op} {k b : Block} {n m : Nat} {s t : State} {rest : List HostItem}

/-! ### The cipher's eleven edges as one chain (44_cipher.md R184, R185) -/

/-- `ctr` at edge `m` of CIPHER, counted from 0: up for ENCRYPT, down for DECRYPT. -/
def cipherCtr : Op → Nat → Nat
  | .encrypt, m => m
  | .decrypt, m => 10 - m

/-- What edge `m` of CIPHER makes of `state_reg`, with the round keys of `k`. -/
def cipherRound (op : Op) (k : Block) (m : Nat) (x : Block) : Block :=
  match op with
  | .encrypt => if m = 0 then addRoundKey x (roundKey k 0) else aesEncRound x (roundKey k m) (decide (m = 10))
  | .decrypt => if m = 10 then addRoundKey x (roundKey k 0) else aesDecRound x (roundKey k (10 - m)) (decide (m = 0))

/-- `state_reg` after `m` edges of CIPHER. -/
def cipherData (op : Op) (k b : Block) : Nat → Block
  | 0 => b
  | m + 1 => cipherRound op k m (cipherData op k b m)

/-- The whole chain is the command's function (44_cipher.md R170, R171). -/
theorem cipherData_eleven (op : Op) (k b : Block) : cipherData op k b 11 = op.result k b := by
  cases op with
  | encrypt => simp [cipherData, cipherRound, Op.result, aes128Encrypt]
  | decrypt => simp [cipherData, cipherRound, Op.result, aes128Decrypt]

/-! ### The registers of a running command -/

/-- In EXPAND, after `n` edges: the round keys up to `n` are written (42_key_schedule.md R130). -/
structure Expanding (op : Op) (k b : Block) (n : Nat) (t : State) : Prop where
  le : n ≤ 9
  phase : t.phase = .expand
  ctr : t.ctr.val = n + 1
  opReg : t.opReg = op
  stateReg : t.stateReg = b
  key : t.rk.get 0 = k
  scheduled : ScheduledBelow t (n + 1)

/-- In CIPHER, after `m` edges there. -/
structure Ciphering (op : Op) (k b : Block) (m : Nat) (t : State) : Prop where
  le : m ≤ 10
  phase : t.phase = .cipher
  ctr : t.ctr.val = cipherCtr op m
  opReg : t.opReg = op
  stateReg : t.stateReg = cipherData op k b m
  rk : t.rk = keyExpand k

/-- In DONE, with the result. -/
structure Finished (op : Op) (k b : Block) (t : State) : Prop where
  phase : t.phase = .done
  ctr : t.ctr = lastCipherCtr op
  opReg : t.opReg = op
  stateReg : t.stateReg = op.result k b
  rk : t.rk = keyExpand k

/-- A command `n` edges after the one that accepted it (44_cipher.md R189). -/
inductive CommandAt (op : Op) (k b : Block) (n : Nat) (t : State) : Prop where
  | expand (h : Expanding op k b n t)
  | cipher (m : Nat) (hn : n = 10 + m) (h : Ciphering op k b m t)
  | done (hn : n = 21) (h : Finished op k b t)

theorem Expanding.of_sameRegisters (h : Expanding op k b n s) (hs : SameRegisters s t) : Expanding op k b n t := by
  obtain ⟨hp, hc, ho, hst, hrk⟩ := hs
  exact ⟨h.le, hp ▸ h.phase, hc ▸ h.ctr, ho ▸ h.opReg, hst ▸ h.stateReg, hrk ▸ h.key, h.scheduled.of_rk hrk.symm⟩

theorem Ciphering.of_sameRegisters (h : Ciphering op k b m s) (hs : SameRegisters s t) : Ciphering op k b m t := by
  obtain ⟨hp, hc, ho, hst, hrk⟩ := hs
  exact ⟨h.le, hp ▸ h.phase, hc ▸ h.ctr, ho ▸ h.opReg, hst ▸ h.stateReg, hrk ▸ h.rk⟩

theorem Finished.of_sameRegisters (h : Finished op k b s) (hs : SameRegisters s t) : Finished op k b t := by
  obtain ⟨hp, hc, ho, hst, hrk⟩ := hs
  exact ⟨hp ▸ h.phase, hc ▸ h.ctr, ho ▸ h.opReg, hst ▸ h.stateReg, hrk ▸ h.rk⟩

/-- Where a command is, is a matter of the registers only. -/
theorem CommandAt.of_sameRegisters (h : CommandAt op k b n s) (hs : SameRegisters s t) : CommandAt op k b n t := by
  cases h with
  | expand h => exact .expand (h.of_sameRegisters hs)
  | cipher m hn h => exact .cipher m hn (h.of_sameRegisters hs)
  | done hn h => exact .done hn (h.of_sameRegisters hs)

/-- `done` comes with the 21st edge and not before. -/
theorem CommandAt.done_eq (h : CommandAt op k b n t) : Machine.done t = decide (n = 21) := by
  cases h with
  | expand h =>
    have hne : n ≠ 21 := by have := h.le; omega
    simp [Machine.done, h.phase, hne]
  | cipher m hn h =>
    have hne : n ≠ 21 := by have := h.le; omega
    simp [Machine.done, h.phase, hne]
  | done hn h => simp [Machine.done, h.phase, hn]

theorem CommandAt.finished (h : CommandAt op k b 21 t) : Finished op k b t := by
  cases h with
  | expand h => have := h.le; omega
  | cipher m hn h => have := h.le; omega
  | done _ h => exact h

/-! ### One edge of a running command -/

/-- A key step keeps `RK[0]`. -/
theorem ExpandsTo.get_zero (h : ExpandsTo s t) : t.rk.get 0 = s.rk.get 0 := by
  rw [h.rk, State.setRoundKey_get_ne s _ h.ctr_ne_zero]

/-- A key step: the first nine stay in EXPAND, the tenth completes the schedule. -/
theorem Expanding.expandStep (h : Expanding op k b n s) :
    ∃ t, s.expandStep = .next t ∧ CommandAt op k b (n + 1) t := by
  obtain ⟨hn, hp, hc, rfl, rfl, rfl, hsch⟩ := h
  rw [← hc] at hsch
  by_cases hlt : s.ctr.val < 10
  · have h0 : s.ctr ≠ 0 := fun e => by simp [e] at hc
    have hx := expandStep_lt h0 hlt
    have he := expandsTo_of_expandStep hx hp
    have hsucc := he.scheduledBelow_succ hsch
    rw [hc] at hsucc
    exact ⟨_, hx, .expand ⟨by omega, hp, congrArg (· + 1) hc, rfl, rfl, he.get_zero, hsucc⟩⟩
  · have h10 : s.ctr = 10 := Fin.ext (by have := s.ctr.isLt; simp; omega)
    have hx := expandStep_last h10
    have he := expandsTo_of_expandStep hx hp
    have hsucc := he.scheduledBelow_succ hsch
    refine ⟨_, hx, .cipher 0 (by omega) ⟨by omega, rfl, ?_, rfl, rfl, ?_⟩⟩
    · cases ho : s.opReg <;> rfl
    · refine schedule_eq_keyExpand fun i => ?_
      rw [hsucc i (by rw [h10]; exact i.isLt), he.get_zero]

/-- An encryption step. -/
theorem Ciphering.encryptStep (h : Ciphering .encrypt k b m s) : CommandAt .encrypt k b (10 + m + 1) s.encryptStep := by
  obtain ⟨hm, hp, hc, ho, hst, hrk⟩ := h
  have hget : s.rk.get s.ctr = roundKey k m := by rw [hrk, keyExpand_get, hc]; rfl
  by_cases h0 : s.ctr = 0
  · obtain rfl : m = 0 := by rw [h0] at hc; exact hc.symm
    rw [encryptStep_zero h0]
    refine .cipher 1 rfl ⟨by omega, hp, rfl, ho, ?_, hrk⟩
    simp [cipherData, cipherRound, hst, hrk]
  by_cases hlt : s.ctr.val < 10
  · have hm0 : m ≠ 0 := fun e => h0 (Fin.ext (hc.trans e))
    have hm10 : m < 10 := by rw [hc] at hlt; exact hlt
    rw [encryptStep_mid h0 hlt]
    refine .cipher (m + 1) rfl ⟨hm10, hp, congrArg (· + 1) hc, ho, ?_, hrk⟩
    simp [cipherData, cipherRound, hst, hget, hm0, hm10.ne]
  · have h10 : s.ctr = 10 := Fin.ext (by have := s.ctr.isLt; simp; omega)
    obtain rfl : m = 10 := by rw [h10] at hc; exact hc.symm
    rw [encryptStep_last h10]
    refine .done rfl ⟨rfl, h10, ho, ?_, hrk⟩
    simp [← cipherData_eleven, cipherData, cipherRound, hst, hrk]

/-- A decryption step. -/
theorem Ciphering.decryptStep (h : Ciphering .decrypt k b m s) : CommandAt .decrypt k b (10 + m + 1) s.decryptStep := by
  obtain ⟨hm, hp, hc, ho, hst, hrk⟩ := h
  have hc' : s.ctr.val = 10 - m := hc
  have hget : s.rk.get s.ctr = roundKey k (10 - m) := by rw [hrk, keyExpand_get, hc']
  by_cases h10 : s.ctr = 10
  · obtain rfl : m = 0 := by simp [h10] at hc'; omega
    rw [decryptStep_first h10]
    refine .cipher 1 rfl ⟨by omega, hp, rfl, ho, ?_, hrk⟩
    simp [cipherData, cipherRound, hst, hrk]
  by_cases h1 : 1 ≤ s.ctr.val
  · have hm0 : m ≠ 0 := fun e => h10 (Fin.ext (by rw [hc', e]; rfl))
    have hm10 : m < 10 := by omega
    rw [decryptStep_mid h10 h1]
    refine .cipher (m + 1) rfl ⟨hm10, hp, ?_, ho, ?_, hrk⟩
    · simp [prevRound, cipherCtr, hc']; omega
    · simp [cipherData, cipherRound, hst, hget, hm0, hm10.ne]
  · have h0 : s.ctr = 0 := Fin.ext (by simp; omega)
    obtain rfl : m = 10 := by omega
    rw [decryptStep_last h0]
    refine .done rfl ⟨rfl, h0, ho, ?_, hrk⟩
    simp [← cipherData_eleven, cipherData, cipherRound, hst, hrk]

/-- Any edge short of a reset takes a running command one edge on, and keeps the queue. -/
theorem CommandAt.exec_next {e : Instr} (h : CommandAt op k b n s) (hn : n ≤ 20) (he : e.isRunEdge = true) :
    ∃ t, exec e s = .next t ∧ CommandAt op k b (n + 1) t ∧ t.host = s.host := by
  suffices hx : ∃ t, exec e s = .next t ∧ CommandAt op k b (n + 1) t by
    obtain ⟨t, hx, ht⟩ := hx
    exact ⟨t, hx, ht, exec_host hx⟩
  obtain ⟨x, hx, hr⟩ := edgeInputs_of_isRunEdge he
  rw [exec_of_edgeInputs hx]
  cases h with
  | expand h =>
    rw [clockEdge_expand hr h.phase]
    exact (h.of_sameRegisters (t := s.countChange x.rkIdx) (.refl s)).expandStep
  | cipher m hm h =>
    have hcount := h.of_sameRegisters (t := s.countChange x.rkIdx) (.refl s)
    subst hm
    cases op with
    | encrypt => exact ⟨_, clockEdge_encrypt hr h.phase h.opReg, hcount.encryptStep⟩
    | decrypt => exact ⟨_, clockEdge_decrypt hr h.phase h.opReg, hcount.decryptStep⟩
  | done h21 h => omega

/-- So do any number of them, up to the 21st. -/
theorem CommandAt.execAll_next {es : List Instr} (h : CommandAt op k b n s) (he : ∀ e ∈ es, e.isRunEdge = true)
    (hn : n + es.length ≤ 21) :
    ∃ t, execAll es s = .next t ∧ CommandAt op k b (n + es.length) t ∧ t.host = s.host := by
  induction es generalizing n s with
  | nil => exact ⟨s, rfl, h, rfl⟩
  | cons e es ih =>
    rw [List.length_cons] at hn ⊢
    obtain ⟨u, hu, hcu, hqu⟩ := h.exec_next (by omega) (he e List.mem_cons_self)
    obtain ⟨t, ht, hct, hqt⟩ := ih hcu (fun x hx => he x (List.mem_cons_of_mem e hx)) (by omega)
    refine ⟨t, (execAll_cons_next hu).trans ht, ?_, hqt.trans hqu⟩
    rwa [show n + (es.length + 1) = n + 1 + es.length by omega]

/-- A core that is not busy accepts a command (44_cipher.md R181). -/
theorem exec_command (i : BitVec 4) (hb : busy s = false) :
    exec (op.command i k b) s = .next ((s.countChange i).accept op k b) := by
  rw [exec_of_edgeInputs (op.edgeInputs_command i k b), clockEdge_accept rfl hb rfl]

theorem commandAt_accept (op : Op) (k b : Block) (s : State) : CommandAt op k b 0 (s.accept op k b) :=
  .expand ⟨by omega, rfl, rfl, rfl, rfl, State.accept_get_zero s op k b, scheduledBelow_one _⟩

/-! ### WAIT while a command runs (30_encoding.md R79) -/

theorem isRunEdge_replicate_waitAccess (m : Nat) : ∀ e ∈ List.replicate m waitAccess, e.isRunEdge = true := by
  intro e he
  rw [List.eq_of_mem_replicate he]
  rfl

/-- One turn of the bounded poll. -/
theorem waitLoop_succ (h : exec waitAccess s = .next t) (bound : Nat) :
    waitLoop (bound + 1) s = if done t then .next t else waitLoop bound t := by
  simp [waitLoop, h]

/-- The bounded poll is the NOP edges that are left, whatever its bound. -/
theorem CommandAt.waitLoop_eq (h : CommandAt op k b n s) (hn : n + m = 20) {bound : Nat} (hb : m < bound) :
    waitLoop bound s = execAll (List.replicate (m + 1) waitAccess) s := by
  obtain ⟨c, rfl⟩ := Nat.exists_eq_add_of_lt hb
  induction m generalizing n s with
  | zero =>
    obtain ⟨u, hu, hcu, -⟩ := h.exec_next (by omega) (e := waitAccess) rfl
    have hd : Machine.done u = true := by rw [hcu.done_eq]; exact decide_eq_true (by omega)
    rw [waitLoop_succ hu, if_pos hd]
    exact (execAll_cons_next (is := []) hu).symm
  | succ m ih =>
    obtain ⟨u, hu, hcu, -⟩ := h.exec_next (by omega) (e := waitAccess) rfl
    have hd : Machine.done u = false := by rw [hcu.done_eq]; exact decide_eq_false (by omega)
    rw [waitLoop_succ hu, hd, List.replicate_succ, execAll_cons_next hu, show m + 1 + c = m + c + 1 by omega]
    exact ih hcu (by omega) (by omega)

/-- Settles O47: WAIT and the NOP edges both begin at the accepting edge's state. -/
theorem waitPollsTwentyOneEdges : Obligations.WaitPollsTwentyOneEdges := by
  intro s t i k b n hb hn h
  have hcommand : ∃ op, CommandAt op k b 0 t := by
    rcases h with h | h
    · cases (exec_command (op := .encrypt) i hb).symm.trans h
      exact ⟨.encrypt, commandAt_accept _ k b _⟩
    · cases (exec_command (op := .decrypt) i hb).symm.trans h
      exact ⟨.decrypt, commandAt_accept _ k b _⟩
  obtain ⟨op, hc⟩ := hcommand
  have hloop : waitLoop n t = execAll (List.replicate 21 waitAccess) t := hc.waitLoop_eq (m := 20) rfl hn
  obtain ⟨u, hu, hcu, -⟩ := hc.execAll_next (isRunEdge_replicate_waitAccess 21) le_rfl
  exact ⟨hloop, u, hloop.trans hu, by rw [hcu.done_eq]; rfl⟩

/-- A turn of WAIT in the queue: the item goes with the 21st edge and not before. -/
theorem CommandAt.step_wait (h : CommandAt op k b n s) (hn : n ≤ 20) (hq : s.host = .wait :: rest) :
    ∃ t, step s = .next t ∧ CommandAt op k b (n + 1) t ∧ t.host = if n = 20 then rest else .wait :: rest := by
  obtain ⟨u, hu, hcu, hqu⟩ := h.exec_next hn (e := waitAccess) rfl
  by_cases h20 : n = 20
  · have hd : Machine.done u = true := by rw [hcu.done_eq]; exact decide_eq_true (by omega)
    exact ⟨_, step_wait_of_done hq hu hd, hcu.of_sameRegisters (.refl u), (if_pos h20).symm⟩
  · have hd : Machine.done u = false := by rw [hcu.done_eq]; exact decide_eq_false (by omega)
    exact ⟨u, step_wait_of_not_done hq hu hd, hcu, by rw [if_neg h20, hqu, hq]⟩

/-- Up to 20 edges after the command, WAIT still waits. -/
theorem CommandAt.run_wait (h : CommandAt op k b n s) (hn : n + m ≤ 20) (hq : s.host = .wait :: rest) :
    ∃ t, Host.Core.run Sys2Proof.core m s = .next t ∧ CommandAt op k b (n + m) t ∧ t.host = .wait :: rest := by
  induction m generalizing n s with
  | zero => exact ⟨s, rfl, h, hq⟩
  | succ m ih =>
    obtain ⟨u, hu, hcu, hqu⟩ := h.step_wait (by omega) hq
    rw [if_neg (by omega)] at hqu
    obtain ⟨t, ht, hct, hqt⟩ := ih hcu (by omega) hqu
    exact ⟨t, (run_succ hu).trans ht, by rwa [show n + (m + 1) = n + 1 + m by omega], hqt⟩

/-- WAIT ends with the edges that are left, in DONE. -/
theorem CommandAt.run_wait_ends (h : CommandAt op k b n s) (hn : n ≤ 20) (hq : s.host = .wait :: rest) :
    ∃ t, Host.Core.run Sys2Proof.core (21 - n) s = .next t ∧ Finished op k b t ∧ t.host = rest := by
  obtain ⟨u, hu, hcu, hqu⟩ := h.run_wait (m := 20 - n) (by omega) hq
  rw [show n + (20 - n) = 20 by omega] at hcu
  obtain ⟨t, ht, hct, hqt⟩ := hcu.step_wait le_rfl hqu
  refine ⟨t, ?_, hct.finished, hqt⟩
  rw [show 21 - n = 20 - n + 1 by omega, run_add hu, run_succ ht]
  rfl

/-! ### Programs of a command (30_encoding.md R79; log entries 11, 22) -/

/-- A command and `m` NOP edges, encoded and waiting, run in `1 + m` steps. -/
theorem run_command_nops (hb : busy s = false) (hm : m ≤ 21)
    (hq : s.host = .ofInstr (op.command 0 k b) :: (List.replicate m (.ofInstr waitAccess) ++ rest)) :
    ∃ t, Host.Core.run Sys2Proof.core (1 + m) s = .next t ∧ CommandAt op k b m t ∧ t.host = rest := by
  have hx := exec_command (op := op) (k := k) (b := b) (s := { s with host := rest }) 0 hb
  obtain ⟨t, ht, hct, hqt⟩ := (commandAt_accept op k b (State.countChange { s with host := rest } 0)).execAll_next
    (isRunEdge_replicate_waitAccess m) (by simpa using hm)
  have hrun := run_of_queue (is := op.command 0 k b :: List.replicate m waitAccess) (by simpa using hq)
    ((execAll_cons_next hx).trans ht)
  exact ⟨t, by simpa [Nat.add_comm] using hrun, by simpa using hct, hqt⟩

/-- What READ samples in DONE. -/
theorem Finished.hostRead_eq (h : Finished op k b s) : hostRead s = ⟨op.result k b, false, true, true⟩ := by
  simp [hostRead, sampleBlockOut, blockOut, busy, done, rkValid, h.phase, h.stateReg]

/-- A command, WAIT and READ run in 23 steps to the sample of the result. -/
theorem run_command_wait_read (hb : busy s = false) (hq : s.host = [.ofInstr (op.command 0 k b), .wait, .read]) :
    ∃ t, Host.Core.run Sys2Proof.core 23 s = .next t ∧ t.host = [] ∧ done t = true ∧
      t.sampled = .outputs ⟨op.result k b, false, true, true⟩ ∧ t.rk = keyExpand k := by
  obtain ⟨u, hu, hcu, hqu⟩ := run_command_nops (m := 0) hb (by omega) hq
  obtain ⟨v, hv, hfv, hqv⟩ := hcu.run_wait_ends (by omega) hqu
  refine ⟨{ v with host := [], sampled := .outputs (hostRead v) }, ?_, rfl, ?_, ?_, hfv.rk⟩
  · rw [show 23 = 1 + 0 + (21 - 0 + 1) from rfl, run_add hu, run_add hv, run_succ (step_of_read hqv)]
    rfl
  · exact (done_eq_true_iff _).2 hfv.phase
  · exact congrArg Sample.outputs hfv.hostRead_eq

/-- Settles O46: each program is its command, WAIT and READ. -/
theorem encwProgramRuns : Obligations.EncwProgramRuns := by
  intro s k b hq hb
  exact ⟨run_command_wait_read (op := .encrypt) (s := s.loadProgram [.encw k b]) hb (by simp [hq, Op.command]),
    run_command_wait_read (op := .decrypt) (s := s.loadProgram [.decw k b]) hb (by simp [hq, Op.command])⟩

/-- A command, `m` NOP edges and WAIT run in 22 steps to the result, and WAIT waits until then. -/
theorem run_command_nops_wait (hb : busy s = false) (hm : m ≤ 20)
    (hq : s.host = .ofInstr (op.command 0 k b) :: (List.replicate m (.ofInstr waitAccess) ++ [.wait])) :
    (∀ n, n ≤ 20 - m → ∃ t, Host.Core.run Sys2Proof.core (1 + m + n) s = .next t ∧
      t.host = [.wait] ∧ done t = false) ∧
    ∃ t, Host.Core.run Sys2Proof.core 22 s = .next t ∧ t.host = [] ∧ done t = true ∧ blockOut t = op.result k b := by
  obtain ⟨u, hu, hcu, hqu⟩ := run_command_nops hb (by omega) hq
  refine ⟨fun n hn => ?_, ?_⟩
  · obtain ⟨t, ht, hct, hqt⟩ := hcu.run_wait (m := n) (by omega) hqu
    exact ⟨t, (run_add hu).trans ht, hqt, by rw [hct.done_eq]; exact decide_eq_false (by omega)⟩
  · obtain ⟨t, ht, hft, hqt⟩ := hcu.run_wait_ends hm hqu
    refine ⟨t, ?_, hqt, (done_eq_true_iff t).2 hft.phase, hft.stateReg⟩
    rw [show 22 = 1 + m + (21 - m) by omega, run_add hu, ht]

/-- The `NOP` of WAIT in IDLE and DONE holds every register (44_cipher.md R182). -/
theorem exec_waitAccess_hold (hb : busy s = false) : exec waitAccess s = .next (s.driveRkIdx 0) :=
  (exec_of_edgeInputs rfl s).trans (clockEdge_hold rfl hb rfl)

/-- In IDLE a WAIT waits for ever. -/
theorem run_wait_idle (n : Nat) (hp : s.phase = .idle) (hq : s.host = .wait :: rest) :
    ∃ t, Host.Core.run Sys2Proof.core n s = .next t ∧ t.host = .wait :: rest ∧ t.phase = .idle := by
  induction n generalizing s with
  | zero => exact ⟨s, rfl, hq, hp⟩
  | succ n ih =>
    have hx := exec_waitAccess_hold ((busy_eq_false_iff s).2 (.inl hp))
    have hd : done (s.driveRkIdx 0) = false := by simp [done, hp]
    rw [run_succ (step_wait_of_not_done hq hx hd)]
    exact ih hp hq

/-- In DONE a WAIT ends after one edge, which changes no register. -/
theorem step_wait_done (hp : s.phase = .done) (hq : s.host = .wait :: rest) :
    step s = .next { s with rkIdx := 0, host := rest } :=
  step_wait_of_done hq (exec_waitAccess_hold ((busy_eq_false_iff s).2 (.inr hp)))
    ((done_eq_true_iff (s.driveRkIdx 0)).2 hp)

/-- Settles O48: while a command runs, in IDLE, and in DONE. -/
theorem waitRunsRemainingEdges : Obligations.WaitRunsRemainingEdges := by
  refine ⟨fun s k b m hq hb hm p hp => ?_, fun s n hq hp => ?_, fun s hq hp => ?_⟩
  · have hrun (op : Op) := run_command_nops_wait (op := op) (k := k) (b := b)
      (s := s.loadProgram [op.line k b, .nop m, .wait]) hb hm (by simp [hq, waitAccess])
    rcases List.mem_pair.1 hp with rfl | rfl
    · exact hrun .encrypt
    · exact hrun .decrypt
  · exact run_wait_idle n hp (by simp [hq])
  · exact step_wait_done (s := s.loadProgram [.wait]) (rest := s.host) hp (by simp [hq])

end Sys2Proof.Machine
end

section
/-! SUPPORT. The family 40_gf28.md: the multiplier's first loop gives the coefficients of the polynomial product, its
second loop subtracts multiples of the reducing polynomial until the degree is below 8 (R102), and the laws of the
product follow from its linearity (R103). -/

namespace Sys2Proof.Machine

/-! ### The first loop: the polynomial product (40_gf28.md R102) -/

/-- The coefficients of x^k times a polynomial, where 15 bits hold the product. -/
theorem setWidth_shiftLeft_getLsbD {w k : Nat} (p : BitVec w) (hk : w + k ≤ 15) (n : Nat) :
    (p.setWidth 15 <<< k).getLsbD n = (decide (k ≤ n) && p.getLsbD (n - k)) := by
  by_cases hn : n < 15
  · by_cases hkn : k ≤ n
    · simp [hn, hkn, Nat.not_lt.2 hkn]
    · simp [hkn, Nat.lt_of_not_le hkn]
  · simp [hn, BitVec.getLsbD_of_ge p (n - k) (by omega)]

/-- The first loop gives the polynomial product: turn by turn, bit `n` is the sum of the terms so far. -/
theorem polyProduct_getLsbD (a b : Byte) (n : Nat) : (polyProduct a b).getLsbD n = productCoeff a b n := by
  refine List.foldl_rel (r := fun (acc : BitVec 15) c => acc.getLsbD n = c) (l := List.range 8)
    BitVec.getLsbD_zero ?_
  rintro i hi acc _ rfl
  have hterm := setWidth_shiftLeft_getLsbD a (k := i) (by have := List.mem_range.1 hi; omega) n
  cases b.getLsbD i
  case false => simp
  case true => simp [BitVec.getLsbD_xor, -BitVec.getLsbD_shiftLeft, hterm]

/-! ### Congruence modulo the reducing polynomial -/

/-- A sum of sums is the sum of the two sums, over GF(2). -/
theorem foldl_xor_xor (l : List Nat) (f g : Nat → Bool) (x y : Bool) :
    l.foldl (fun acc i => acc ^^ (f i ^^ g i)) (x ^^ y) =
      (l.foldl (fun acc i => acc ^^ f i) x ^^ l.foldl (fun acc i => acc ^^ g i) y) := by
  induction l generalizing x y with
  | nil => rfl
  | cons i l ih =>
    have hswap : ((x ^^ y) ^^ (f i ^^ g i)) = ((x ^^ f i) ^^ (y ^^ g i)) := by
      rw [Bool.xor_assoc, Bool.xor_left_comm y, ← Bool.xor_assoc]
    rw [List.foldl_cons, hswap, ih]
    rfl

/-- The polynomial product is linear in its right operand. -/
theorem productCoeff_xor {w : Nat} (p : BitVec w) (b c : Byte) (n : Nat) :
    productCoeff p (b ^^^ c) n = (productCoeff p b n ^^ productCoeff p c n) := by
  simp only [productCoeff, BitVec.getLsbD_xor, Bool.and_xor_distrib_left]
  exact foldl_xor_xor _ _ _ false false

theorem productCoeff_zero {w : Nat} (p : BitVec w) (n : Nat) : productCoeff p 0 n = false := by
  simpa using productCoeff_xor p 0 0 n

/-- The product with x^k is a shift by `k`. -/
theorem productCoeff_twoPow {w : Nat} (p : BitVec w) {k : Nat} (hk : k < 8) (n : Nat) :
    productCoeff p (BitVec.twoPow 8 k) n = (decide (k ≤ n) && p.getLsbD (n - k)) := by
  interval_cases k <;> simp [productCoeff, List.range_succ, BitVec.getLsbD_twoPow]

/-- `x` is `y` plus a multiple of the reducing polynomial. -/
def CongruentModPolynomial (x y : BitVec 15) : Prop :=
  ∃ q : Byte, ∀ n, x.getLsbD n = (y.getLsbD n ^^ productCoeff (0x11B : BitVec 9) q n)

theorem CongruentModPolynomial.refl (x : BitVec 15) : CongruentModPolynomial x x :=
  ⟨0, fun n => by rw [productCoeff_zero, Bool.xor_false]⟩

theorem CongruentModPolynomial.trans {x y z : BitVec 15} (hxy : CongruentModPolynomial x y)
    (hyz : CongruentModPolynomial y z) : CongruentModPolynomial x z := by
  obtain ⟨q, hq⟩ := hxy
  obtain ⟨r, hr⟩ := hyz
  exact ⟨r ^^^ q, fun n => by rw [hq, hr, productCoeff_xor, Bool.xor_assoc]⟩

/-! ### The second loop: reduction (40_gf28.md R102) -/

/-- The turn of the second loop at bit `k + 8`. -/
def reduceBit (k : Nat) (acc : BitVec 15) : BitVec 15 :=
  if acc.getLsbD (k + 8) then acc ^^^ (reducingPolynomial <<< k) else acc

/-- The last `k` turns of the second loop. -/
def reduceBelow : Nat → BitVec 15 → BitVec 15
  | 0, acc => acc
  | k + 1, acc => reduceBelow k (reduceBit k acc)

theorem polyReduce_eq_reduceBelow (acc : BitVec 15) : polyReduce acc = reduceBelow 7 acc := rfl

/-- The reducing polynomial shifted as in the loop: 15 bits hold it. -/
theorem reducingPolynomial_shiftLeft_getLsbD {k : Nat} (hk : k < 7) (n : Nat) :
    (reducingPolynomial <<< k).getLsbD n = (decide (k ≤ n) && (0x11B : BitVec 9).getLsbD (n - k)) :=
  setWidth_shiftLeft_getLsbD (0x11B : BitVec 9) (by omega) n

/-- A turn subtracts the reducing polynomial times x^k, or nothing. -/
theorem reduceBit_congruent {k : Nat} (hk : k < 7) (acc : BitVec 15) :
    CongruentModPolynomial acc (reduceBit k acc) := by
  unfold reduceBit
  split
  · refine ⟨BitVec.twoPow 8 k, fun n => ?_⟩
    rw [productCoeff_twoPow _ (by omega), ← reducingPolynomial_shiftLeft_getLsbD hk, BitVec.getLsbD_xor,
      Bool.xor_assoc, Bool.xor_self, Bool.xor_false]
  · exact .refl acc

/-- A turn at bit `k + 8` clears that bit and leaves the bits above it clear. -/
theorem reduceBit_clears {k : Nat} (hk : k < 7) {acc : BitVec 15} (h : ∀ n, k + 9 ≤ n → acc.getLsbD n = false)
    {n : Nat} (hn : k + 8 ≤ n) : (reduceBit k acc).getLsbD n = false := by
  have hshift := reducingPolynomial_shiftLeft_getLsbD hk n
  unfold reduceBit
  rcases Nat.eq_or_lt_of_le hn with rfl | hlt
  · have htop : (reducingPolynomial <<< k).getLsbD (k + 8) = true := by rw [hshift]; simp
    split
    next hset => rw [BitVec.getLsbD_xor, hset, htop, Bool.xor_self]
    next hclear => exact Bool.eq_false_iff.2 hclear
  · have habove : (reducingPolynomial <<< k).getLsbD n = false := by
      rw [hshift, BitVec.getLsbD_of_ge _ _ (by omega), Bool.and_false]
    split
    · rw [BitVec.getLsbD_xor, h n hlt, habove, Bool.xor_false]
    · exact h n hlt

theorem reduceBelow_congruent {k : Nat} (hk : k ≤ 7) (acc : BitVec 15) :
    CongruentModPolynomial acc (reduceBelow k acc) := by
  induction k generalizing acc with
  | zero => exact .refl acc
  | succ k ih => exact (reduceBit_congruent (by omega) acc).trans (ih (by omega) (reduceBit k acc))

/-- The loop leaves a degree below 8. -/
theorem reduceBelow_clears {k : Nat} (hk : k ≤ 7) {acc : BitVec 15} (h : ∀ n, k + 8 ≤ n → acc.getLsbD n = false)
    {n : Nat} (hn : 8 ≤ n) : (reduceBelow k acc).getLsbD n = false := by
  induction k generalizing acc with
  | zero => exact h n (by omega)
  | succ k ih => exact ih (by omega) fun m hm => reduceBit_clears (by omega) (fun j hj => h j (by omega)) hm

/-- The byte taken from the reduced accumulator drops no set bit. -/
theorem gf28Mult_getLsbD (a b : Byte) (n : Nat) :
    (gf28Mult a b).getLsbD n = (polyReduce (polyProduct a b)).getLsbD n := by
  by_cases hn : n < 8
  · simp [gf28Mult, hn]
  · have hge : 8 ≤ n := Nat.le_of_not_lt hn
    rw [polyReduce_eq_reduceBelow, reduceBelow_clears le_rfl (BitVec.getLsbD_of_ge (polyProduct a b)) hge,
      BitVec.getLsbD_of_ge _ n hge]

/-- The polynomial product is the field product plus a multiple of the reducing polynomial. -/
theorem productCoeff_eq_gf28Mult (a b : Byte) : ∃ q : Byte, ∀ n,
    productCoeff a b n = ((gf28Mult a b).getLsbD n ^^ productCoeff (0x11B : BitVec 9) q n) := by
  obtain ⟨q, hq⟩ := reduceBelow_congruent le_rfl (polyProduct a b)
  refine ⟨q, fun n => ?_⟩
  rw [← polyProduct_getLsbD, gf28Mult_getLsbD, polyReduce_eq_reduceBelow]
  exact hq n

/-- Settles O12: the first loop is the product, the second subtracts multiples of 0x11B down to a Byte. -/
theorem fieldMultIsProductModPolynomial : Obligations.FieldMultIsProductModPolynomial := by
  intro s a b
  obtain ⟨q, hq⟩ := productCoeff_eq_gf28Mult a b
  exact ⟨gf28Mult a b, q, rfl, hq⟩

/-! ### The laws of the field product (40_gf28.md R102, R103) -/

/-- The product is linear in both operands, and commutative on the powers of x. -/
theorem gf28Mult_comm (a b : Byte) : gf28Mult a b = gf28Mult b a := by
  have hpowers : ∀ x ∈ ([1, 2, 4, 8, 16, 32, 64, 128] : List Byte),
      ∀ y ∈ ([1, 2, 4, 8, 16, 32, 64, 128] : List Byte), gf28Mult x y = gf28Mult y x := by decide
  have hleft (x : Byte) (hx : x ∈ ([1, 2, 4, 8, 16, 32, 64, 128] : List Byte)) : gf28Mult x b = gf28Mult b x :=
    linear_ext (f := gf28Mult x) (g := (gf28Mult · x)) (gf28Mult_xor_right x)
      (fun y z => gf28Mult_xor_left y z x) (hpowers x hx) b
  exact linear_ext (f := (gf28Mult · b)) (g := gf28Mult b) (fun x y => gf28Mult_xor_left x y b)
    (gf28Mult_xor_right b) hleft a

theorem gf28Mult_zero (a : Byte) : gf28Mult a 0 = 0 := by
  simpa using gf28Mult_xor_right a 0 0

theorem gf28Mult_one (a : Byte) : gf28Mult a 1 = a :=
  linear_ext (f := (gf28Mult · 1)) (g := id) (fun x y => gf28Mult_xor_left x y 1) (fun _ _ => rfl) (by decide) a

/-- Doubling: a shift, and 0x1B for the bit shifted out (40_gf28.md R102). -/
def gf28Double (a : Byte) : Byte := (a <<< 1) ^^^ (if a.getLsbD 7 then 0x1B else 0)

theorem gf28Double_xor (a b : Byte) : gf28Double (a ^^^ b) = gf28Double a ^^^ gf28Double b := by
  simp only [gf28Double, BitVec.shiftLeft_xor_distrib, BitVec.getLsbD_xor, ite_xor_bit]
  ac_rfl

theorem gf28Mult_two (a : Byte) : gf28Mult a 2 = gf28Double a :=
  linear_ext (f := (gf28Mult · 2)) (fun x y => gf28Mult_xor_left x y 2) gf28Double_xor (by decide) a

/-- Settles O13: both sides of each law are linear, and they agree on the powers of x. -/
theorem fieldMultLaws : Obligations.FieldMultLaws := fun a b c =>
  ⟨gf28Mult_comm a b, gf28Mult_xor_right a b c, gf28Mult_zero a, gf28Mult_one a, gf28Mult_two a⟩

/-! ### Addition and subtraction (40_gf28.md R100, R101) -/

theorem exec_gf28Add (s : State) (a b : Byte) :
    exec (.gf28Add a b) s = .next { s with sampled := .byte (a ^^^ b) } := rfl

/-- Settles O10: exclusive-or, and its two corner cases. -/
theorem fieldAddIsXor : Obligations.FieldAddIsXor := by
  intro s a b
  refine ⟨exec_gf28Add s a b, ?_, ?_⟩
  · rw [exec_gf28Add, BitVec.xor_self]
    rfl
  · simp [exec_gf28Add]

/-- Settles O11: subtraction is the same exclusive-or as addition. -/
theorem fieldSubIsAdd : Obligations.FieldSubIsAdd :=
  fun _ _ _ => ⟨rfl, rfl⟩

end Sys2Proof.Machine
end

section
/-! SUPPORT. The family 41_sbox.md: what an access to each table samples, the two tables as inverse permutations
(R113), and Table 1 as the affine image of the field inverse (R111), read backwards: the affine map is undone by
another, and that map takes each table entry to the field inverse of its index. -/

namespace Sys2Proof.Machine

/-! ### The accesses (41_sbox.md R110, R112) -/

theorem exec_sboxFwd (s : State) (x : Byte) :
    exec (.sboxFwd x) s = .next { s with sampled := .byte (sboxFwd x) } := rfl

theorem exec_sboxInv (s : State) (x : Byte) :
    exec (.sboxInv x) s = .next { s with sampled := .byte (sboxInv x) } := rfl

/-! ### The tables as permutations (41_sbox.md R113) -/

/-- Tables 1 and 2 are constants without a law of their own: this compares them entry by entry. -/
theorem sboxInv_sboxFwd : ∀ v : Byte, sboxInv (sboxFwd v) = v := by decide +kernel

/-- Table 1 is injective, so on the finite range of Bytes it is onto, and its left inverse is its right inverse. -/
theorem sboxFwd_sboxInv (v : Byte) : sboxFwd (sboxInv v) = v := by
  have hleft : Function.LeftInverse sboxInv sboxFwd := sboxInv_sboxFwd
  obtain ⟨u, rfl⟩ := Finite.surjective_of_injective hleft.injective v
  rw [sboxInv_sboxFwd]

/-- Settles O14: Table 2 undoes Table 1, and a left inverse on a finite range is a right inverse. -/
theorem sboxesAreInverse : Obligations.SboxesAreInverse := fun s v =>
  ⟨exec_sboxFwd s v, exec_sboxInv s v, sboxInv_sboxFwd v, sboxFwd_sboxInv v⟩

/-! ### Table 1 as an affine image (41_sbox.md R110, R111) -/

/-- The affine map that undoes the one of R111. -/
def affineInv (y : Byte) : Byte :=
  y.rotateLeft 1 ^^^ y.rotateLeft 3 ^^^ y.rotateLeft 6 ^^^ 0x05

theorem affine_affineInv : ∀ y : Byte, affine (affineInv y) = y := by decide +kernel

theorem affineInv_sboxFwd_zero : affineInv (sboxFwd 0) = 0 := by decide

/-- Each entry but the first comes, under the affine map, from the field inverse of its index (R111). -/
theorem gf28Mult_affineInv_sboxFwd : ∀ x : Byte, x ≠ 0 → gf28Mult x (affineInv (sboxFwd x)) = 1 := by
  decide +kernel

/-- SBOX_FWD samples the affine image of what the inverse affine map makes of its table entry. -/
theorem exec_sboxFwd_eq_affine (s : State) (x : Byte) :
    exec (.sboxFwd x) s = .next { s with sampled := .byte (affine (affineInv (sboxFwd x))) } := by
  rw [exec_sboxFwd, affine_affineInv]

/-- No byte is a fixed point, by inspection of Table 1 as in R110. -/
theorem sboxFwd_ne_self : ∀ x : Byte, sboxFwd x ≠ x := by decide +kernel

/-- Settles O15: the field inverse of `x` is what the inverse affine map makes of the table entry of `x`. -/
theorem sboxIsAffineOfInverse : Obligations.SboxIsAffineOfInverse := fun s x =>
  ⟨affineInv (sboxFwd x), fun hx => hx ▸ affineInv_sboxFwd_zero, gf28Mult_affineInv_sboxFwd x,
    exec_sboxFwd_eq_affine s x, sboxFwd_ne_self x⟩

end Sys2Proof.Machine
end

section
/-! SUPPORT. The family 42_key_schedule.md: the round constants (R120), the Word functions byte by byte (R121 to R123),
the key step by its Words (R124), the expanded key on `rk_all` (R125), and the EXPAND step of the core (R130). -/

namespace Sys2Proof.Machine

/-! ### The round constants (42_key_schedule.md R120) -/

/-- Doubling takes each defined constant to the next one: the ten entries compared one by one. -/
theorem rcon_add_one : ∀ r : BitVec 4, 1 ≤ r.toNat → r.toNat ≤ 9 → rcon (r + 1) = gf28Double (rcon r) := by decide

/-- Settles O16: the sixteen entries of the table, and multiplication by 0x02 as doubling. -/
theorem roundConstants : Obligations.RoundConstants := by
  refine ⟨fun _ _ => rfl, by decide, fun r h1 h9 => ?_⟩
  rw [gf28Mult_two, rcon_add_one r h1 h9]

/-! ### The Word functions (42_key_schedule.md R121, R122, R123) -/

/-- Byte k of the Word made of bytes `f`. -/
theorem wordByte_wordOf_apply (f : Fin 4 → Byte) (k : Fin 4) :
    wordByte (wordOf (f 0) (f 1) (f 2) (f 3)) k = f k := by
  fin_cases k
  · exact wordByte_wordOf_0 ..
  · exact wordByte_wordOf_1 ..
  · exact wordByte_wordOf_2 ..
  · exact wordByte_wordOf_3 ..

/-- ROT_WORD moves byte 0 to the end and every other byte one place forward; the sum is modulo 4. -/
theorem wordByte_rotWord (w : Word) (k : Fin 4) : wordByte (rotWord w) k = wordByte w (k + 1) :=
  wordByte_wordOf_apply (fun j => wordByte w (j + 1)) k

/-- SUB_WORD substitutes each byte in its place. -/
theorem wordByte_subWord (w : Word) (k : Fin 4) : wordByte (subWord w) k = sboxFwd (wordByte w k) :=
  wordByte_wordOf_apply (fun j => sboxFwd (wordByte w j)) k

/-- The substituted bytes of a rotated Word. -/
theorem wordByte_subWord_rotWord (w : Word) (k : Fin 4) :
    wordByte (subWord (rotWord w)) k = sboxFwd (wordByte w (k + 1)) := by
  rw [wordByte_subWord, wordByte_rotWord]

/-- G_FUNC puts the round constant into byte 0. -/
theorem wordByte_gFunc_zero (w : Word) (r : BitVec 4) :
    wordByte (gFunc w r) 0 = sboxFwd (wordByte w 1) ^^^ rcon r :=
  (wordByte_wordOf_0 ..).trans (congrArg (· ^^^ rcon r) (wordByte_subWord_rotWord w 0))

/-- G_FUNC rotates and substitutes the other bytes and no more. -/
theorem wordByte_gFunc_of_ne_zero (w : Word) (r : BitVec 4) {k : Fin 4} (hk : k ≠ 0) :
    wordByte (gFunc w r) k = sboxFwd (wordByte w (k + 1)) := by
  rw [← wordByte_subWord_rotWord]
  fin_cases k
  · exact absurd rfl hk
  · exact wordByte_wordOf_1 ..
  · exact wordByte_wordOf_2 ..
  · exact wordByte_wordOf_3 ..

/-- Settles O17: the sampled Word by its bytes. -/
theorem keyWordFunctions : Obligations.KeyWordFunctions := fun _ w r =>
  ⟨⟨rotWord w, rfl, wordByte_rotWord w 0, wordByte_rotWord w 1, wordByte_rotWord w 2, wordByte_rotWord w 3⟩,
    ⟨subWord w, rfl, wordByte_subWord w⟩,
    ⟨gFunc w r, rfl, wordByte_gFunc_zero w r, wordByte_gFunc_of_ne_zero w r (k := 1) (by decide),
      wordByte_gFunc_of_ne_zero w r (k := 2) (by decide), wordByte_gFunc_of_ne_zero w r (k := 3) (by decide)⟩⟩

/-! ### The key step (42_key_schedule.md R124) -/

section
variable (p : Block) (r : BitVec 4)

theorem blockWord_keyStep_zero : blockWord (keyStep p r) 0 = blockWord p 0 ^^^ gFunc (blockWord p 3) r :=
  blockWord_blockOfWords_0 ..

theorem blockWord_keyStep_one : blockWord (keyStep p r) 1 = blockWord p 1 ^^^ blockWord (keyStep p r) 0 := by
  rw [blockWord_keyStep_zero]
  exact blockWord_blockOfWords_1 ..

theorem blockWord_keyStep_two : blockWord (keyStep p r) 2 = blockWord p 2 ^^^ blockWord (keyStep p r) 1 := by
  rw [blockWord_keyStep_one, blockWord_keyStep_zero]
  exact blockWord_blockOfWords_2 ..

theorem blockWord_keyStep_three : blockWord (keyStep p r) 3 = blockWord p 3 ^^^ blockWord (keyStep p r) 2 := by
  rw [blockWord_keyStep_two, blockWord_keyStep_one, blockWord_keyStep_zero]
  exact blockWord_blockOfWords_3 ..

end

/-- Settles O18: the sampled Block by its Words, each from the one before. -/
theorem keyStepIsXorChain : Obligations.KeyStepIsXorChain := fun _ p r =>
  ⟨keyStep p r, rfl, blockWord_keyStep_zero p r, blockWord_keyStep_one p r, blockWord_keyStep_two p r,
    blockWord_keyStep_three p r⟩

/-! ### The expanded key (42_key_schedule.md R125; 30_encoding.md R75) -/

/-- Round key r on the port of the key expander. -/
theorem extract_packSchedule_keyExpand (key : Block) {r : Nat} (h : r < 11) :
    (packSchedule (keyExpand key)).extractLsb' (1280 - 128 * r) 128 = roundKey key r :=
  (rkAllEntry_packSchedule (keyExpand key) ⟨r, h⟩).trans (keyExpand_get key ⟨r, h⟩)

/-- Settles O19: the port holds the round keys, and each is by definition the key step of the one before. -/
theorem keyExpandIteratesKeyStep : Obligations.KeyExpandIteratesKeyStep := by
  intro s key
  refine ⟨packSchedule (keyExpand key), rfl, extract_packSchedule_keyExpand key (r := 0) (by decide), ?_⟩
  intro r h1 h10
  obtain ⟨n, rfl⟩ := Nat.exists_eq_add_of_le' h1
  rw [extract_packSchedule_keyExpand key (by omega), Nat.add_sub_cancel,
    extract_packSchedule_keyExpand key (by omega)]
  rfl

/-! ### The EXPAND step of the core (42_key_schedule.md R130) -/

/-- An edge has on the wire `rk_idx` what its access drives there. -/
theorem rkIdx_of_edgeInputs {i : Instr} {e : EdgeInputs} (h : i.edgeInputs = some e) : e.rkIdx = i.edgeRkIdx := by
  cases i <;> simp [Instr.edgeInputs] at h <;> subst h <;> rfl

section
variable {s : State} {e : Instr}

/-- An edge without reset in EXPAND is a key step. -/
theorem exec_of_expand (hp : s.phase = .expand) (he : e.isRunEdge = true) :
    exec e s = (s.countChange e.edgeRkIdx).expandStep := by
  obtain ⟨x, hx, hr⟩ := edgeInputs_of_isRunEdge he
  rw [exec_of_edgeInputs hx, clockEdge_expand hr hp, rkIdx_of_edgeInputs hx]

/-- The last key step makes round key 10 of round key 9. -/
theorem nextRoundKey_ten (h : s.ctr = 10) : nextRoundKey s = keyStep (s.rk.get 9) 10 := by
  rw [nextRoundKey, h]
  rfl

end

/-- Settles O34: the edge is a key step, by whether `ctr` has reached 10. -/
theorem expandStepWritesRoundKey : Obligations.ExpandStepWritesRoundKey := by
  intro s e hp he
  rw [exec_of_expand hp he]
  refine ⟨fun hlt h1 => ?_, fun h10 => ?_⟩
  · have h0 : s.ctr ≠ 0 := fun h => by simp [h] at h1
    exact expandStep_lt (s := s.countChange e.edgeRkIdx) h0 hlt
  · have hlast : (s.countChange e.edgeRkIdx).ctr = 10 := h10
    rw [expandStep_last hlast, nextRoundKey_ten hlast]
    rfl

/-- In EXPAND with `ctr` = 1 a command has had no edge yet since it was accepted, whatever its operands were. -/
theorem commandAt_of_expand {s : State} (hp : s.phase = .expand) (hc : s.ctr = 1) :
    CommandAt s.opReg (s.rk.get 0) s.stateReg 0 s :=
  .expand ⟨by omega, hp, congrArg Fin.val hc, rfl, rfl, rfl, scheduledBelow_one s⟩

/-- Ten edges after it was accepted a command begins CIPHER. -/
theorem CommandAt.ciphering {op : Op} {k b : Block} {t : State} (h : CommandAt op k b 10 t) :
    Ciphering op k b 0 t := by
  cases h with
  | expand h => exact absurd h.le (by decide)
  | cipher m hm h =>
    obtain rfl : m = 0 := by omega
    exact h
  | done hn _ => exact absurd hn (by decide)

/-- Settles O35: the ten edges take the command to the beginning of CIPHER, where the schedule is complete. -/
theorem tenExpandEdgesLeaveSchedule : Obligations.TenExpandEdgesLeaveSchedule := by
  intro s es hp hc hlen hes
  obtain ⟨t, hx, ht, -⟩ := (commandAt_of_expand hp hc).execAll_next hes (by omega)
  rw [hlen] at ht
  obtain ⟨-, hphase, -, hop, hst, hrk⟩ := ht.ciphering
  exact ⟨t, hx, hphase, hst, hop, hrk⟩

end Sys2Proof.Machine
end

section
/-! SUPPORT. The family 43_round.md: each round transformation by its bytes or cells (R140 to R146), the inverse laws
(R151), and the round modules (R147 to R150). That INV_MIX_COLUMNS undoes MIX_COLUMNS is a fact about the two matrices:
the field product is associative, so two matrices one after the other are their product, and that is the identity. -/

namespace Sys2Proof.Machine

/-! ### ADD_ROUND_KEY (43_round.md R140) -/

/-- Byte i of an exclusive-or. -/
theorem blockByte_xor (b k : Block) (i : Fin 16) : blockByte (b ^^^ k) i = blockByte b i ^^^ blockByte k i :=
  extract_xor b k _ _

theorem addRoundKey_eq_xor (b k : Block) : addRoundKey b k = b ^^^ k := by
  apply block_ext
  intro i
  rw [addRoundKey, blockByte_blockOf, blockByte_xor, gf28Add]

theorem addRoundKey_addRoundKey (b k : Block) : addRoundKey (addRoundKey b k) k = b := by
  rw [addRoundKey_eq_xor, addRoundKey_eq_xor, BitVec.xor_assoc, BitVec.xor_self, BitVec.xor_zero]

theorem exec_addRoundKey (s : State) (b k : Block) :
    exec (.addRoundKey b k) s = .next { s with sampled := .block (addRoundKey b k) } := rfl

/-- Settles O20: byte by byte the sampled Block is the exclusive-or, and so it undoes itself. -/
theorem addRoundKeyIsXor : Obligations.AddRoundKeyIsXor := by
  intro s b k
  constructor
  · rw [exec_addRoundKey, addRoundKey_eq_xor]
  · rw [exec_addRoundKey, ← addRoundKey_eq_xor, addRoundKey_addRoundKey]

/-! ### SUB_BYTES and INV_SUB_BYTES (43_round.md R141, R142) -/

theorem blockByte_subBytes (b : Block) (i : Fin 16) : blockByte (subBytes b) i = sboxFwd (blockByte b i) :=
  blockByte_blockOf _ i

theorem blockByte_invSubBytes (b : Block) (i : Fin 16) : blockByte (invSubBytes b) i = sboxInv (blockByte b i) :=
  blockByte_blockOf _ i

theorem invSubBytes_subBytes (b : Block) : invSubBytes (subBytes b) = b := by
  apply block_ext
  intro i
  rw [blockByte_invSubBytes, blockByte_subBytes, sboxInv_sboxFwd]

theorem subBytes_invSubBytes (b : Block) : subBytes (invSubBytes b) = b := by
  apply block_ext
  intro i
  rw [blockByte_subBytes, blockByte_invSubBytes, sboxFwd_sboxInv]

/-- Settles O21: the sampled Block by its bytes. -/
theorem subBytesActBytewise : Obligations.SubBytesActBytewise := fun _ b =>
  ⟨⟨subBytes b, rfl, blockByte_subBytes b⟩, ⟨invSubBytes b, rfl, blockByte_invSubBytes b⟩⟩

/-! ### SHIFT_ROWS and INV_SHIFT_ROWS (43_round.md R143, R144) -/

/-- Row r moves left by r columns; the sum is modulo 4. -/
theorem cell_shiftRows (b : Block) (r c : Fin 4) : cell (shiftRows b) r c = cell b r (c + r) :=
  cell_blockOfCells _ r c

/-- Row r moves right by r columns; the difference is modulo 4. -/
theorem cell_invShiftRows (b : Block) (r c : Fin 4) : cell (invShiftRows b) r c = cell b r (c - r) :=
  cell_blockOfCells _ r c

theorem invShiftRows_shiftRows (b : Block) : invShiftRows (shiftRows b) = b := by
  apply block_ext_cells
  intro r c
  rw [cell_invShiftRows, cell_shiftRows, sub_add_cancel]

/-- The difference modulo 4 as R144 writes it for naturals. -/
theorem val_sub_eq_add_four_sub_mod (c r : Fin 4) : (c - r).val = (c.val + 4 - r.val) % 4 := by
  rw [Fin.val_sub]
  congr 1
  omega

theorem exec_invShiftRows (s : State) (b : Block) :
    exec (.invShiftRows b) s = .next { s with sampled := .block (invShiftRows b) } := rfl

/-- Settles O22: the sampled Block by its cells, with the column's sum or difference modulo 4 written out. -/
theorem shiftRowsRotateRows : Obligations.ShiftRowsRotateRows := by
  intro s b
  refine ⟨⟨shiftRows b, rfl, cell_shiftRows b⟩, ⟨invShiftRows b, rfl, fun r c => ?_⟩, ?_⟩
  · refine (cell_invShiftRows b r c).trans ?_
    simp only [cell, cellIndex, val_sub_eq_add_four_sub_mod]
  · rw [exec_invShiftRows, invShiftRows_shiftRows]

/-! ### MIX_COLUMNS and INV_MIX_COLUMNS (43_round.md R145, R146) -/

theorem cell_mixColumns (b : Block) (r c : Fin 4) : cell (mixColumns b) r c = rowTimesColumn mixMatrix b r c :=
  cell_blockOfCells _ r c

theorem cell_invMixColumns (b : Block) (r c : Fin 4) :
    cell (invMixColumns b) r c = rowTimesColumn invMixMatrix b r c :=
  cell_blockOfCells _ r c

@[simp] theorem one_gf28Mult (a : Byte) : gf28Mult 1#8 a = a :=
  (gf28Mult_comm _ a).trans (gf28Mult_one a)

@[simp] theorem zero_gf28Mult (a : Byte) : gf28Mult 0#8 a = 0#8 :=
  (gf28Mult_comm _ a).trans (gf28Mult_zero a)

/-- Both sides are linear in each factor, and they agree on the powers of x. -/
theorem gf28Mult_gf28Double (a b : Byte) : gf28Mult a (gf28Double b) = gf28Double (gf28Mult a b) := by
  have hpowers : ∀ x ∈ ([1, 2, 4, 8, 16, 32, 64, 128] : List Byte),
      ∀ y ∈ ([1, 2, 4, 8, 16, 32, 64, 128] : List Byte),
        gf28Mult x (gf28Double y) = gf28Double (gf28Mult x y) := by decide +kernel
  refine linear_ext (f := (gf28Mult · (gf28Double b))) (g := fun x => gf28Double (gf28Mult x b))
    (fun x y => gf28Mult_xor_left x y _) (by simp only [gf28Mult_xor_left, gf28Double_xor, implies_true])
    (fun x hx => ?_) a
  exact linear_ext (f := fun y => gf28Mult x (gf28Double y)) (g := fun y => gf28Double (gf28Mult x y))
    (by simp only [gf28Double_xor, gf28Mult_xor_right, implies_true])
    (by simp only [gf28Mult_xor_right, gf28Double_xor, implies_true]) (hpowers x hx) b

theorem gf28Mult_assoc_double_iterate (a b : Byte) (k : Nat) :
    gf28Mult (gf28Mult a b) (gf28Double^[k] 1) = gf28Mult a (gf28Mult b (gf28Double^[k] 1)) := by
  induction k with
  | zero => rw [Function.iterate_zero_apply, gf28Mult_one, gf28Mult_one]
  | succ k ih => simp only [Function.iterate_succ_apply', gf28Mult_gf28Double, ih]

/-- The powers of x are 1 doubled again and again. -/
theorem powers_eq_iterate_double :
    ([1, 2, 4, 8, 16, 32, 64, 128] : List Byte) = List.iterate gf28Double 1 8 := by decide

/-- Both sides are linear in the last factor, and doubling builds its powers of x. -/
theorem gf28Mult_assoc (a b c : Byte) : gf28Mult (gf28Mult a b) c = gf28Mult a (gf28Mult b c) := by
  refine linear_ext (f := gf28Mult (gf28Mult a b)) (g := fun z => gf28Mult a (gf28Mult b z))
    (gf28Mult_xor_right _) (by simp only [gf28Mult_xor_right, implies_true]) (fun z hz => ?_) c
  rw [powers_eq_iterate_double, List.mem_iterate] at hz
  obtain ⟨k, -, rfl⟩ := hz
  exact gf28Mult_assoc_double_iterate a b k

/-- The product of two matrices over the field. -/
def matrixProduct (m n : Vector (Vector Byte 4) 4) : Vector (Vector Byte 4) 4 :=
  Vector.ofFn fun r => Vector.ofFn fun j =>
    gf28Mult ((m.get r).get 0) ((n.get 0).get j) ^^^ gf28Mult ((m.get r).get 1) ((n.get 1).get j) ^^^
      gf28Mult ((m.get r).get 2) ((n.get 2).get j) ^^^ gf28Mult ((m.get r).get 3) ((n.get 3).get j)

def identityMatrix : Vector (Vector Byte 4) 4 := #v[#v[1, 0, 0, 0], #v[0, 1, 0, 0], #v[0, 0, 1, 0], #v[0, 0, 0, 1]]

theorem get_matrixProduct (m n : Vector (Vector Byte 4) 4) (r j : Fin 4) :
    ((matrixProduct m n).get r).get j =
      gf28Mult ((m.get r).get 0) ((n.get 0).get j) ^^^ gf28Mult ((m.get r).get 1) ((n.get 1).get j) ^^^
        gf28Mult ((m.get r).get 2) ((n.get 2).get j) ^^^ gf28Mult ((m.get r).get 3) ((n.get 3).get j) := by
  simp [matrixProduct, Vector.get_eq_getElem]

/-- The columns times one matrix and then another are the columns times the product of the two. -/
theorem rowTimesColumn_rowTimesColumn (m n : Vector (Vector Byte 4) 4) (b : Block) (r c : Fin 4) :
    rowTimesColumn m (blockOfCells (rowTimesColumn n b)) r c = rowTimesColumn (matrixProduct m n) b r c := by
  simp only [rowTimesColumn, gf28Add, cell_blockOfCells, get_matrixProduct, gf28Mult_xor_right, gf28Mult_xor_left,
    gf28Mult_assoc]
  ac_rfl

theorem rowTimesColumn_identityMatrix (b : Block) (r c : Fin 4) : rowTimesColumn identityMatrix b r c = cell b r c := by
  fin_cases r <;> simp [rowTimesColumn, identityMatrix, gf28Add, Vector.get_eq_getElem]

/-- The matrix of R146 is the inverse of that of R145: the sixteen entries of their product. -/
theorem matrixProduct_invMixMatrix_mixMatrix : matrixProduct invMixMatrix mixMatrix = identityMatrix := by decide

theorem invMixColumns_mixColumns (b : Block) : invMixColumns (mixColumns b) = b := by
  apply block_ext_cells
  intro r c
  rw [cell_invMixColumns, mixColumns, rowTimesColumn_rowTimesColumn, matrixProduct_invMixMatrix_mixMatrix,
    rowTimesColumn_identityMatrix]

/-- Settles O23: the sampled Block by its cells, where a product with an entry 1 is the cell itself. -/
theorem mixColumnsMultipliesColumns : Obligations.MixColumnsMultipliesColumns := by
  refine fun s b => ⟨mixColumns b, rfl, fun c => ?_⟩
  simp [cell_mixColumns, rowTimesColumn, mixMatrix, gf28Add, Vector.get_eq_getElem]

theorem exec_invMixColumns (s : State) (b : Block) :
    exec (.invMixColumns b) s = .next { s with sampled := .block (invMixColumns b) } := rfl

/-- Settles O24: the sampled Block by its cells, and the two matrices as inverses. -/
theorem invMixColumnsMultipliesColumns : Obligations.InvMixColumnsMultipliesColumns := by
  refine fun s b => ⟨?_, invMixColumns b, exec_invMixColumns s b, fun c => ?_⟩
  · rw [exec_invMixColumns, invMixColumns_mixColumns]
  · exact ⟨cell_invMixColumns b 0 c, cell_invMixColumns b 1 c, cell_invMixColumns b 2 c, cell_invMixColumns b 3 c⟩

/-! ### The inverse laws and the round modules (43_round.md R147 to R151) -/

/-- Settles O25: the inverse law of each transformation. -/
theorem roundTransformationsInvert : Obligations.RoundTransformationsInvert := fun b k =>
  ⟨addRoundKey_addRoundKey b k, invSubBytes_subBytes b, subBytes_invSubBytes b, invShiftRows_shiftRows b,
    invMixColumns_mixColumns b⟩

/-- Settles O26: with its select fixed each module is the composition, by definition. -/
theorem roundModulesCompose : Obligations.RoundModulesCompose := fun _ _ _ => ⟨rfl, rfl, rfl, rfl⟩

section
variable (x k : Block)

theorem aesEncRound_false : aesEncRound x k false = addRoundKey (mixColumns (shiftRows (subBytes x))) k := rfl

theorem aesEncRound_true : aesEncRound x k true = addRoundKey (shiftRows (subBytes x)) k := rfl

theorem aesDecRound_false : aesDecRound x k false = invSubBytes (invShiftRows (invMixColumns (addRoundKey x k))) := rfl

theorem aesDecRound_true : aesDecRound x k true = invSubBytes (invShiftRows (addRoundKey x k)) := rfl

end

/-- Settles O27: the inverse round undoes the transformations of the round, the last one first. -/
theorem decRoundUndoesEncRound : Obligations.DecRoundUndoesEncRound := by
  intro x k skipMix
  cases skipMix
  case false =>
    rw [aesDecRound_false, aesEncRound_false, addRoundKey_addRoundKey, invMixColumns_mixColumns,
      invShiftRows_shiftRows, invSubBytes_subBytes]
  case true =>
    rw [aesDecRound_true, aesEncRound_true, addRoundKey_addRoundKey, invShiftRows_shiftRows, invSubBytes_subBytes]

end Sys2Proof.Machine
end

section
/-! SUPPORT. The family 44_cipher.md: the two whole-block functions as one chain of eleven edges of CIPHER each, run
against each other (R170 to R172); the cases of one edge of the core (R180 to R185); and a command from its acceptance
to its 21st edge (R186 to R189). -/

namespace Sys2Proof.Machine

/-! ### The chain of rounds (44_cipher.md R170, R171) -/

section
variable (op : Op) (k x b : Block) {m : Nat}

theorem cipherData_succ (m : Nat) : cipherData op k b (m + 1) = cipherRound op k m (cipherData op k b m) := rfl

theorem cipherRound_encrypt_zero : cipherRound .encrypt k 0 x = addRoundKey x (roundKey k 0) := rfl

theorem cipherRound_encrypt_pos (h : m ≠ 0) :
    cipherRound .encrypt k m x = aesEncRound x (roundKey k m) (decide (m = 10)) := if_neg h

theorem cipherRound_decrypt_ten : cipherRound .decrypt k 10 x = addRoundKey x (roundKey k 0) := rfl

theorem cipherRound_decrypt_lt (h : m < 10) :
    cipherRound .decrypt k m x = aesDecRound x (roundKey k (10 - m)) (decide (m = 0)) := if_neg h.ne

end

/-- Between two neighbours of the encryption's chain lies one round. -/
theorem cipherData_encrypt_round (k b : Block) {r : Nat} (h1 : 1 ≤ r) (h9 : r ≤ 9) :
    cipherData .encrypt k b (r + 1) = aesEncRound (cipherData .encrypt k b r) (roundKey k r) false := by
  have hlast : decide (r = 10) = false := decide_eq_false (by omega)
  rw [cipherData_succ, cipherRound_encrypt_pos k _ (by omega), hlast]

/-- Between two neighbours of the decryption's chain, which counts the rounds down, lies one inverse round. -/
theorem cipherData_decrypt_round (k b : Block) {r : Nat} (h1 : 1 ≤ r) (h9 : r ≤ 9) :
    cipherData .decrypt k b (11 - r) = aesDecRound (cipherData .decrypt k b (10 - r)) (roundKey k r) false := by
  have hfirst : decide (10 - r = 0) = false := decide_eq_false (by omega)
  rw [show 11 - r = 10 - r + 1 by omega, cipherData_succ, cipherRound_decrypt_lt k _ (by omega), hfirst,
    show 10 - (10 - r) = r by omega]

theorem exec_aes128Encrypt (s : State) (b k : Block) :
    exec (.aes128Encrypt b k) s = .next { s with sampled := .block (aes128Encrypt b k) } := rfl

theorem exec_aes128Decrypt (s : State) (b k : Block) :
    exec (.aes128Decrypt b k) s = .next { s with sampled := .block (aes128Decrypt b k) } := rfl

/-- Settles O28: the Block after round r is the one after edge r of CIPHER, and after edge 10 - r in decryption. -/
theorem cipherFunctionsChainRounds : Obligations.CipherFunctionsChainRounds := by
  intro s b k
  have hencrypt : aes128Encrypt b k = aesEncRound (cipherData .encrypt k b 10) (roundKey k 10) true :=
    (cipherData_eleven .encrypt k b).symm
  have hdecrypt : aes128Decrypt b k = addRoundKey (cipherData .decrypt k b 10) (roundKey k 0) :=
    (cipherData_eleven .decrypt k b).symm
  refine ⟨⟨fun r => cipherData .encrypt k b (r + 1), rfl, fun r h1 h9 => ?_, ?_⟩,
    ⟨fun r => cipherData .decrypt k b (11 - r), rfl, fun r h1 h9 => ?_, ?_⟩⟩
  · simp only [Nat.sub_add_cancel h1, cipherData_encrypt_round k b h1 h9]
  · rw [exec_aes128Encrypt, hencrypt]
  · simp only [Nat.reduceSubDiff, cipherData_decrypt_round k b h1 h9]
  · rw [exec_aes128Decrypt, hdecrypt]

/-! ### Decryption undoes encryption (44_cipher.md R172) -/

/-- Edge `10 - m` of the decryption undoes edge `m` of the encryption. -/
theorem cipherRound_decrypt_encrypt (k x : Block) {m : Nat} (hm : m ≤ 10) :
    cipherRound .decrypt k (10 - m) (cipherRound .encrypt k m x) = x := by
  by_cases h0 : m = 0
  · subst h0
    rw [cipherRound_encrypt_zero, Nat.sub_zero, cipherRound_decrypt_ten, addRoundKey_addRoundKey]
  · have hskip : decide (10 - m = 0) = decide (m = 10) := decide_eq_decide.2 (by omega)
    rw [cipherRound_encrypt_pos k x h0, cipherRound_decrypt_lt k _ (by omega), hskip, show 10 - (10 - m) = m by omega]
    exact decRoundUndoesEncRound x _ _

/-- The decryption of an encryption's result runs the encryption's chain backwards. -/
theorem cipherData_decrypt_encrypt (k b : Block) {m : Nat} (hm : m ≤ 11) :
    cipherData .decrypt k (aes128Encrypt b k) m = cipherData .encrypt k b (11 - m) := by
  induction m with
  | zero => exact (cipherData_eleven .encrypt k b).symm
  | succ m ih =>
    have hback := cipherRound_decrypt_encrypt k (cipherData .encrypt k b (10 - m)) (m := 10 - m) (by omega)
    rw [show 10 - (10 - m) = m by omega] at hback
    rw [cipherData_succ, ih (by omega), show 11 - m = 10 - m + 1 by omega, cipherData_succ, hback]
    congr 1
    omega

/-- Settles O29: after its eleventh edge the decryption is at the beginning of the encryption's chain. -/
theorem cipherRoundTrip : Obligations.CipherRoundTrip := fun b k =>
  (cipherData_eleven .decrypt k _).symm.trans (cipherData_decrypt_encrypt k b le_rfl)

/-! ### Acceptance, hold, and start while busy (44_cipher.md R181 to R183) -/

section
variable {s : State} {e : Instr}

/-- In IDLE and DONE a NOP holds every register. -/
theorem exec_nop_hold (op : Op) (i : BitVec 4) (hb : busy s = false) : exec (.nop op i) s = .next (s.driveRkIdx i) :=
  (exec_of_edgeInputs rfl s).trans (clockEdge_hold rfl hb rfl)

/-- So do any number of them: only the wire `rk_idx` can differ. -/
theorem execAll_nops_hold (op : Op) (i : BitVec 4) (n : Nat) (hb : busy s = false) :
    ∃ j, execAll (List.replicate n (.nop op i)) s = .next (s.driveRkIdx j) := by
  induction n generalizing s with
  | zero => exact ⟨s.rkIdx, rfl⟩
  | succ n ih =>
    obtain ⟨j, hj⟩ := ih (s := s.driveRkIdx i) hb
    exact ⟨j, (execAll_cons_next (exec_nop_hold op i hb)).trans hj⟩

/-- Settles O32: the state after the NOPs differs in `rk_idx` only, which no register holds. -/
theorem holdKeepsRegisters : Obligations.HoldKeepsRegisters := by
  intro s op i hb
  refine ⟨exec_nop_hold op i hb, fun n => ?_⟩
  obtain ⟨j, hj⟩ := execAll_nops_hold op i n hb
  exact ⟨s.driveRkIdx j, hj, .refl s, rfl, fun _ => rfl⟩

/-- While `busy` any edge short of a reset is a NOP, with any `op`. -/
theorem exec_eq_nop_of_busy (he : e.isRunEdge = true) (hb : busy s = true) (op : Op) :
    exec e s = exec (.nop op e.edgeRkIdx) s := by
  obtain ⟨x, hx, hr⟩ := edgeInputs_of_isRunEdge he
  rw [exec_of_edgeInputs hx, clockEdge_busy hr hb op, rkIdx_of_edgeInputs hx]

/-- Settles O33: while `busy` both commands are the NOP. -/
theorem startWhileBusyIgnored : Obligations.StartWhileBusyIgnored := fun _ _ _ _ op hb =>
  ⟨exec_eq_nop_of_busy rfl hb op, exec_eq_nop_of_busy rfl hb op⟩

/-- A reset edge looks at no other input but the wire `rk_idx`. -/
theorem exec_reset (start : Bool) (op : Op) (i : BitVec 4) :
    exec (.reset start op i) s = .next (s.countReset i).resetEdge :=
  (exec_of_edgeInputs rfl s).trans (clockEdge_reset rfl)

/-- A NOP does not look at `op`. -/
theorem exec_nop_op (op op' : Op) (i : BitVec 4) : exec (.nop op i) s = exec (.nop op' i) s := by
  cases hb : busy s with
  | false => rw [exec_nop_hold op i hb, exec_nop_hold op' i hb]
  | true => exact exec_eq_nop_of_busy rfl hb op'

/-- Settles O31: acceptance while not `busy`, and the edges that do not look at the operands. -/
theorem commandAcceptance : Obligations.CommandAcceptance := by
  refine ⟨fun s i k b hb => ⟨exec_command (op := .encrypt) i hb, exec_command (op := .decrypt) i hb⟩,
    fun s i k b k' b' hb => ?_, fun s i start start' op op' => ?_, fun s i op op' => exec_nop_op op op' i⟩
  · obtain ⟨hencrypt, -⟩ := startWhileBusyIgnored s i k b .encrypt hb
    obtain ⟨-, hdecrypt⟩ := startWhileBusyIgnored s i k' b' .encrypt hb
    exact hencrypt.trans hdecrypt.symm
  · rw [exec_reset, exec_reset]

/-! ### One edge in CIPHER (44_cipher.md R184, R185) -/

/-- An edge without reset in CIPHER of an ENCRYPT is an encryption step. -/
theorem exec_of_cipher_encrypt (hp : s.phase = .cipher) (ho : s.opReg = .encrypt) (he : e.isRunEdge = true) :
    exec e s = .next (s.countChange e.edgeRkIdx).encryptStep := by
  obtain ⟨x, hx, hr⟩ := edgeInputs_of_isRunEdge he
  rw [exec_of_edgeInputs hx, clockEdge_encrypt hr hp ho, rkIdx_of_edgeInputs hx]

/-- In CIPHER of a DECRYPT it is a decryption step. -/
theorem exec_of_cipher_decrypt (hp : s.phase = .cipher) (ho : s.opReg = .decrypt) (he : e.isRunEdge = true) :
    exec e s = .next (s.countChange e.edgeRkIdx).decryptStep := by
  obtain ⟨x, hx, hr⟩ := edgeInputs_of_isRunEdge he
  rw [exec_of_edgeInputs hx, clockEdge_decrypt hr hp ho, rkIdx_of_edgeInputs hx]

end

/-- Settles O36: the edge is an encryption step, by where `ctr` is. -/
theorem encryptionStep : Obligations.EncryptionStep := by
  intro s e hp ho he
  rw [exec_of_cipher_encrypt hp ho he]
  refine ⟨fun h0 => ?_, fun hlt h1 => ?_, fun h10 => ?_⟩
  · exact congrArg _ (encryptStep_zero (s := s.countChange e.edgeRkIdx) h0)
  · have h0 : s.ctr ≠ 0 := fun h => by simp [h] at h1
    exact congrArg _ (encryptStep_mid (s := s.countChange e.edgeRkIdx) h0 hlt)
  · exact congrArg _ (encryptStep_last (s := s.countChange e.edgeRkIdx) h10)

/-- Settles O37: the edge is a decryption step, by where `ctr` is. -/
theorem decryptionStep : Obligations.DecryptionStep := by
  intro s e hp ho he
  rw [exec_of_cipher_decrypt hp ho he]
  refine ⟨fun h10 => ?_, fun h1 hlt => ?_, fun h0 => ?_⟩
  · exact congrArg _ (decryptStep_first (s := s.countChange e.edgeRkIdx) h10)
  · have h10 : s.ctr ≠ 10 := fun h => by simp [h] at hlt
    exact congrArg _ (decryptStep_mid (s := s.countChange e.edgeRkIdx) h10 h1)
  · exact congrArg _ (decryptStep_last (s := s.countChange e.edgeRkIdx) h0)

/-! ### Where a command is after each edge (44_cipher.md R189) -/

section
variable {op : Op} {k b : Block} {n : Nat} {s t : State}

theorem CommandAt.opReg_eq (h : CommandAt op k b n t) : t.opReg = op := by
  cases h with
  | expand h => exact h.opReg
  | cipher m _ h => exact h.opReg
  | done _ h => exact h.opReg

theorem CommandAt.busy_eq (h : CommandAt op k b n t) : busy t = decide (n < 21) := by
  cases h with
  | expand h =>
    have hlt : n < 21 := by have := h.le; omega
    simp [busy, h.phase, hlt]
  | cipher m hn h =>
    have hlt : n < 21 := by have := h.le; omega
    simp [busy, h.phase, hlt]
  | done hn h => simp [busy, h.phase, hn]

theorem CommandAt.rkValid_eq (h : CommandAt op k b n t) : rkValid t = decide (10 ≤ n) := by
  cases h with
  | expand h =>
    have hlt : ¬ 10 ≤ n := by have := h.le; omega
    simp [rkValid, h.phase, hlt]
  | cipher m hn h => simp [rkValid, h.phase, hn]
  | done hn h => simp [rkValid, h.phase, hn]

/-- The last column of R189's table: the phase and the counter after edge `n`. -/
theorem CommandAt.schedule (h : CommandAt op k b n t) :
    (n ≤ 9 → t.phase = .expand ∧ t.ctr.val = n + 1) ∧
      (10 ≤ n → n ≤ 20 → t.phase = .cipher ∧ t.ctr.val = cipherCtr op (n - 10)) ∧
      (n = 21 → t.phase = .done ∧ t.ctr.val = (lastCipherCtr op).val) := by
  cases h with
  | expand h =>
    have hle := h.le
    exact ⟨fun _ => ⟨h.phase, h.ctr⟩, fun _ _ => by omega, fun _ => by omega⟩
  | cipher m hn h =>
    have hle := h.le
    subst hn
    refine ⟨fun _ => by omega, fun _ _ => ⟨h.phase, ?_⟩, fun _ => by omega⟩
    rw [h.ctr, Nat.add_sub_cancel_left]
  | done hn h =>
    exact ⟨fun _ => by omega, fun _ _ => by omega, fun _ => ⟨h.phase, congrArg Fin.val h.ctr⟩⟩

/-! ### Whole commands (44_cipher.md R186 to R189) -/

/-- A command accepted by a core that is not busy, and up to 21 edges after it. -/
theorem execAll_command (op : Op) (i : BitVec 4) (k b : Block) {es : List Instr} (hb : busy s = false)
    (hes : ∀ e ∈ es, e.isRunEdge = true) (hlen : es.length ≤ 21) :
    ∃ t, execAll (op.command i k b :: es) s = .next t ∧ CommandAt op k b es.length t := by
  obtain ⟨t, hx, ht, -⟩ := (commandAt_accept op k b (s.countChange i)).execAll_next hes (by omega)
  rw [Nat.zero_add] at ht
  exact ⟨t, (execAll_cons_next (exec_command i hb)).trans hx, ht⟩

/-- With 21 edges the command is finished. -/
theorem execAll_command_finished (op : Op) (i : BitVec 4) (k b : Block) {es : List Instr} (hb : busy s = false)
    (hes : ∀ e ∈ es, e.isRunEdge = true) (hlen : es.length = 21) :
    ∃ t, execAll (op.command i k b :: es) s = .next t ∧ Finished op k b t := by
  obtain ⟨t, hx, ht⟩ := execAll_command op i k b hb hes hlen.le
  rw [hlen] at ht
  exact ⟨t, hx, ht.finished⟩

/-- The outputs of a command edge by edge, and its result. -/
theorem execAll_command_outputs (op : Op) (i : BitVec 4) (k b : Block) {es : List Instr} (hb : busy s = false)
    (hes : ∀ e ∈ es, e.isRunEdge = true) (hlen : es.length ≤ 21) :
    ∃ t, execAll (op.command i k b :: es) s = .next t ∧
      busy t = decide (es.length < 21) ∧ done t = decide (es.length = 21) ∧
      rkValid t = decide (10 ≤ es.length) ∧ t.opReg = op ∧
      (es.length = 21 → t.phase = .done ∧ blockOut t = op.result k b ∧ t.rk = keyExpand k) := by
  obtain ⟨t, hx, ht⟩ := execAll_command op i k b hb hes hlen
  refine ⟨t, hx, ht.busy_eq, ht.done_eq, ht.rkValid_eq, ht.opReg_eq, fun h21 => ?_⟩
  have hf : Finished op k b t := (h21 ▸ ht).finished
  exact ⟨hf.phase, hf.stateReg, hf.rk⟩

end

/-- Settles O42: a command, with ENCRYPT's result. -/
theorem encryptCommandResult : Obligations.EncryptCommandResult := fun _ i k b _ =>
  execAll_command_outputs .encrypt i k b

/-- Settles O43: a command, with DECRYPT's result. -/
theorem decryptCommandResult : Obligations.DecryptCommandResult := fun _ i k c _ =>
  execAll_command_outputs .decrypt i k c

/-- Settles O44: the schedule of either command, with its own counters in CIPHER and DONE. -/
theorem edgeSchedule : Obligations.EdgeSchedule := by
  intro s i k b es hb hes hlen
  obtain ⟨t, hxt, ht⟩ := execAll_command .encrypt i k b hb hes hlen
  obtain ⟨u, hxu, hu⟩ := execAll_command .decrypt i k b hb hes hlen
  obtain ⟨huExpand, huCipher, huDone⟩ := hu.schedule
  refine ⟨⟨t, hxt, ht.schedule⟩, u, hxu, huExpand, fun h10 h20 => ?_, huDone⟩
  obtain ⟨hphase, hctr⟩ := huCipher h10 h20
  have hdown : cipherCtr .decrypt (es.length - 10) = 20 - es.length := by simp only [cipherCtr]; omega
  exact ⟨hphase, hctr.trans hdown⟩

/-- Settles O45: the ENCRYPT ends in DONE, which accepts the DECRYPT of its result. -/
theorem coreRoundTrip : Obligations.CoreRoundTrip := by
  intro s i j k b es ds hb hes hlenE hds hlenD
  obtain ⟨t, hxt, ht⟩ := execAll_command_finished .encrypt i k b hb hes hlenE
  have hready : busy t = false := (busy_eq_false_iff t).2 (.inr ht.phase)
  obtain ⟨u, hxu, hu⟩ := execAll_command_finished .decrypt j k (blockOut t) hready hds hlenD
  refine ⟨t, u, hxt, hxu, (done_eq_true_iff u).2 hu.phase, ?_⟩
  calc blockOut u = aes128Decrypt (blockOut t) k := hu.stateReg
    _ = aes128Decrypt (aes128Encrypt b k) k := congrArg (aes128Decrypt · k) ht.stateReg
    _ = b := cipherRoundTrip b k

end Sys2Proof.Machine
end

section
/-! SUPPORT. The family 60_exceptions.md: the hardware takes no exception (R200). The one fault is a key step at `ctr` 0,
which 10_state.md R23 excludes, and the one refusal is a frame that does not decode. -/

namespace Sys2Proof.Machine

/-! ### No operation stops (60_exceptions.md R200; log entry 9) -/

/-- A key step at a counter R23 allows writes its round key. -/
theorem exists_expandStep_next {s : State} (h0 : s.ctr ≠ 0) : ∃ t, s.expandStep = .next t := by
  by_cases hlt : s.ctr.val < 10
  · exact ⟨_, expandStep_lt h0 hlt⟩
  · have h10 : s.ctr = 10 := Fin.ext (by have := s.ctr.isLt; simp; omega)
    exact ⟨_, expandStep_last h10⟩

/-- Of the six cases of 44_cipher.md R180 only the key step could stop. -/
theorem exists_clockEdge_next (e : EdgeInputs) {s : State} (h : s.phase = .expand → s.ctr ≠ 0) :
    ∃ t, clockEdge e s = .next t := by
  cases hr : e.rst with
  | true => exact ⟨_, clockEdge_reset hr⟩
  | false =>
    cases hp : s.phase with
    | expand =>
      rw [clockEdge_expand hr hp]
      exact exists_expandStep_next (s := s.countChange e.rkIdx) (h hp)
    | cipher =>
      cases ho : s.opReg with
      | encrypt => exact ⟨_, clockEdge_encrypt hr hp ho⟩
      | decrypt => exact ⟨_, clockEdge_decrypt hr hp ho⟩
    | idle | done =>
      have hb : busy s = false := (busy_eq_false_iff s).2 (by simp [hp])
      cases hs : e.start with
      | true => exact ⟨_, clockEdge_accept hr hb hs⟩
      | false => exact ⟨_, clockEdge_hold hr hb hs⟩

/-- Settles O51: an operation is one edge, or a sample that takes none. -/
theorem noOperationStops : Obligations.NoOperationStops := by
  intro i s h
  cases hi : i.edgeInputs with
  | none =>
    obtain ⟨idx, v, hx⟩ := exec_of_noEdge hi s
    exact ⟨_, hx⟩
  | some e =>
    rw [exec_of_edgeInputs hi]
    exact exists_clockEdge_next e h

/-! ### No queue of decodable frames stops the machine (60_exceptions.md R200; log entries 10, 11) -/

/-- Every frame that waits in the queue is an access of the hardware. -/
def QueueDecodes (s : State) : Prop := ∀ f, .access f ∈ s.host → ∃ i, decode f = .ok i

/-- A shorter queue decodes where the longer did. -/
theorem QueueDecodes.of_host_subset {s t : State} (h : QueueDecodes s) (hsub : t.host ⊆ s.host) : QueueDecodes t :=
  fun f hf => h f (hsub hf)

/-- The invariant keeps the counter of EXPAND off the value R23 excludes. -/
theorem SequencerInv.ctr_ne_zero {s : State} (h : SequencerInv s) (hp : s.phase = .expand) : s.ctr ≠ 0 := by
  obtain ⟨h1, -⟩ := h.expand hp
  intro h0
  simp [h0] at h1

/-- A step takes items off the queue and puts none on it. -/
theorem host_subset_of_step {s t : State} (h : step s = .next t) : t.host ⊆ s.host := by
  rcases step_next h with ⟨-, hx⟩ | ⟨f, i, rest, hq, -, hx⟩ | ⟨rest, hq, rfl⟩ | ⟨rest, u, hq, hx, rfl⟩
  · rw [exec_host hx]
    exact List.Subset.refl _
  · rw [exec_host hx, hq]
    exact List.subset_cons_self _ _
  · rw [hq]
    exact List.subset_cons_self _ _
  · split
    · rw [hq]
      exact List.subset_cons_self _ _
    · rw [exec_host hx]
      exact List.Subset.refl _

/-- Under the invariant a queue whose frames decode has a next step: whatever is done is an operation, or a READ. -/
theorem exists_step_next {s : State} (hs : SequencerInv s) (hd : QueueDecodes s) : ∃ t, step s = .next t := by
  match hq : s.host with
  | [] =>
    rw [step_of_empty hq]
    exact noOperationStops _ s hs.ctr_ne_zero
  | .access f :: rest =>
    obtain ⟨i, hi⟩ := hd f (by simp [hq])
    rw [step_of_access hq, hi]
    exact noOperationStops i (s.dropItem rest) hs.ctr_ne_zero
  | .read :: rest => exact ⟨_, step_of_read hq⟩
  | .wait :: rest =>
    obtain ⟨t, hx⟩ := noOperationStops waitAccess s hs.ctr_ne_zero
    rw [step_of_wait hq]
    exact ⟨_, waitStep_next hx⟩

/-- Progress and preservation in one step. -/
theorem exists_step_next_keeps {s : State} (hs : SequencerInv s) (hd : QueueDecodes s) :
    ∃ t, step s = .next t ∧ SequencerInv t ∧ QueueDecodes t := by
  obtain ⟨t, hx⟩ := exists_step_next hs hd
  exact ⟨t, hx, stepKeepsSequencerInv s t hs hx, hd.of_host_subset (host_subset_of_step hx)⟩

/-- Hence in any number of steps. -/
theorem exists_run_next (n : Nat) {s : State} (hs : SequencerInv s) (hd : QueueDecodes s) :
    ∃ t, Host.Core.run Sys2Proof.core n s = .next t := by
  induction n generalizing s with
  | zero => exact ⟨s, rfl⟩
  | succ n ih =>
    obtain ⟨u, hx, hu, hdu⟩ := exists_step_next_keeps hs hd
    rw [run_succ hx]
    exact ih hu hdu

/-- Settles O60: the invariant rules out the fault and the queue the refusal, and a step keeps both. -/
theorem decodedStepsNeverStop : Obligations.DecodedStepsNeverStop := fun _ hs hd =>
  ⟨exists_step_next_keeps hs hd, fun n => exists_run_next n hs hd⟩

end Sys2Proof.Machine
end

section
/-! SUPPORT. The family 70_reset_and_hazards.md: a reset held for more than one edge (R222), the sequencer's
independence of data (R232), and runs under the host contract (R230; log entry 25). -/

namespace Sys2Proof.Machine

/-! ### Reset held for more edges (70_reset_and_hazards.md R222) -/

/-- A reset edge right after a reset edge leaves the state as it is, the free values included. -/
theorem resetEdge_resetEdge (s : State) (i : BitVec 4) :
    ((s.countReset i).resetEdge.countReset i).resetEdge = (s.countReset i).resetEdge := by
  have hidle : (s.countReset i).resetEdge.countReset i = (s.countReset i).resetEdge.driveRkIdx i := if_pos rfl
  have hdriven : (s.countReset i).driveRkIdx i = s.countReset i := by unfold State.countReset; split <;> rfl
  calc ((s.countReset i).resetEdge.countReset i).resetEdge
      = ((s.countReset i).driveRkIdx i).resetEdge := by rw [hidle]; rfl
    _ = (s.countReset i).resetEdge := by rw [hdriven]

/-- So do any number of them. -/
theorem execAll_resets (s : State) (start : Bool) (op : Op) (i : BitVec 4) (n : Nat) :
    execAll (List.replicate n (.reset start op i)) (s.countReset i).resetEdge = .next (s.countReset i).resetEdge := by
  induction n with
  | zero => rfl
  | succ n ih =>
    have hx : exec (.reset start op i) (s.countReset i).resetEdge = .next (s.countReset i).resetEdge := by
      rw [exec_reset, resetEdge_resetEdge]
    exact (execAll_cons_next hx).trans ih

/-- Settles O57: the edges after the first leave its state as it is. -/
theorem repeatedResetIsOneReset : Obligations.RepeatedResetIsOneReset := fun s i start op n =>
  have hx : exec (.reset start op i) s = .next (s.countReset i).resetEdge := exec_reset start op i
  ⟨_, hx, (execAll_cons_next hx).trans (execAll_resets s start op i n), rfl, rfl, rfl, rfl, rfl, rfl⟩

/-! ### The sequencer without the data (70_reset_and_hazards.md R232) -/

/-- The sequencers agree, whatever the data registers hold. -/
def SameSequencer (s t : State) : Prop := s.phase = t.phase ∧ s.ctr = t.ctr ∧ s.opReg = t.opReg

section
variable {s t s' t' : State}

theorem SameSequencer.expandStep (h : SameSequencer s t) (hs : s.expandStep = .next s') (ht : t.expandStep = .next t') :
    SameSequencer s' t' := by
  obtain ⟨hp, hc, ho⟩ := h
  rcases expandStep_next hs with ⟨hlt, h0, rfl⟩ | ⟨h10, rfl⟩
  · rw [hc] at h0 hlt
    cases (expandStep_lt h0 hlt).symm.trans ht
    exact ⟨hp, by simp only [hc], ho⟩
  · cases (expandStep_last (hc ▸ h10)).symm.trans ht
    exact ⟨rfl, congrArg firstCipherCtr ho, ho⟩

theorem SameSequencer.encryptStep (h : SameSequencer s t) : SameSequencer s.encryptStep t.encryptStep := by
  obtain ⟨hp, hc, ho⟩ := h
  by_cases h0 : s.ctr = 0
  · rw [encryptStep_zero h0, encryptStep_zero (hc ▸ h0)]
    exact ⟨hp, rfl, ho⟩
  by_cases hlt : s.ctr.val < 10
  · rw [encryptStep_mid h0 hlt, encryptStep_mid (hc ▸ h0) (hc ▸ hlt)]
    exact ⟨hp, by simp only [hc], ho⟩
  · have h10 : s.ctr = 10 := Fin.ext (by have := s.ctr.isLt; simp; omega)
    rw [encryptStep_last h10, encryptStep_last (hc ▸ h10)]
    exact ⟨rfl, hc, ho⟩

theorem SameSequencer.decryptStep (h : SameSequencer s t) : SameSequencer s.decryptStep t.decryptStep := by
  obtain ⟨hp, hc, ho⟩ := h
  by_cases h10 : s.ctr = 10
  · rw [decryptStep_first h10, decryptStep_first (hc ▸ h10)]
    exact ⟨hp, rfl, ho⟩
  by_cases h1 : 1 ≤ s.ctr.val
  · rw [decryptStep_mid h10 h1, decryptStep_mid (hc ▸ h10) (hc ▸ h1)]
    exact ⟨hp, congrArg prevRound hc, ho⟩
  · have h0 : s.ctr = 0 := Fin.ext (by simp; omega)
    rw [decryptStep_last h0, decryptStep_last (hc ▸ h0)]
    exact ⟨rfl, hc, ho⟩

/-- An edge takes the sequencer on by itself and the control inputs: the six cases of 44_cipher.md R180. -/
theorem SameSequencer.clockEdge (h : SameSequencer s t) {rst start : Bool} {op : Op} {i j : BitVec 4}
    {k b k' b' : Block} (hs : clockEdge ⟨rst, start, op, k, b, i⟩ s = .next s')
    (ht : clockEdge ⟨rst, start, op, k', b', j⟩ t = .next t') : SameSequencer s' t' := by
  obtain ⟨hp, hc, ho⟩ := h
  rcases clockEdge_next hs with ⟨rfl, rfl⟩ | ⟨rfl, hb, rfl, rfl⟩ | ⟨rfl, hb, rfl, rfl⟩ | ⟨rfl, hph, hx⟩ |
    ⟨rfl, hph, hop, rfl⟩ | ⟨rfl, hph, hop, rfl⟩
  · cases (clockEdge_reset rfl).symm.trans ht
    exact ⟨rfl, rfl, rfl⟩
  · have hbt : busy t = false := by rw [busy_eq_false_iff, ← hp, ← busy_eq_false_iff, hb]
    cases (clockEdge_accept rfl hbt rfl).symm.trans ht
    exact ⟨rfl, rfl, rfl⟩
  · have hbt : busy t = false := by rw [busy_eq_false_iff, ← hp, ← busy_eq_false_iff, hb]
    cases (clockEdge_hold rfl hbt rfl).symm.trans ht
    exact ⟨hp, hc, ho⟩
  · rw [clockEdge_expand rfl (hp ▸ hph)] at ht
    exact SameSequencer.expandStep (s := s.countChange i) (t := t.countChange j) ⟨hp, hc, ho⟩ hx ht
  · cases (clockEdge_encrypt rfl (hp ▸ hph) (ho ▸ hop)).symm.trans ht
    exact SameSequencer.encryptStep (s := s.countChange i) (t := t.countChange j) ⟨hp, hc, ho⟩
  · cases (clockEdge_decrypt rfl (hp ▸ hph) (ho ▸ hop)).symm.trans ht
    exact SameSequencer.decryptStep (s := s.countChange i) (t := t.countChange j) ⟨hp, hc, ho⟩

end

/-- Settles O56: each command is an edge, with the same control inputs in both cores. -/
theorem latencyIndependentOfData : Obligations.LatencyIndependentOfData := by
  intro s t s' t' i j start op k b k' b' hp hc ho hx
  have h : SameSequencer s t := ⟨hp, hc, ho⟩
  rcases hx with ⟨hs, ht⟩ | ⟨hs, ht⟩ | ⟨hs, ht⟩ | ⟨hs, ht⟩
  · exact h.clockEdge (rst := true) hs ht
  · exact h.clockEdge (rst := false) (start := true) (op := .encrypt) hs ht
  · exact h.clockEdge (rst := false) (start := true) (op := .decrypt) hs ht
  · exact h.clockEdge (rst := false) (start := false) (op := op) hs ht

/-! ### The contract at the next item (70_reset_and_hazards.md R230) -/

section
variable {h h' h'' : RunHistory} {s t u : State} {rest : List HostItem} {ds : List Departure} {n m : Nat}

/-- `Laws.FrameRoundTrip.all` as the equation it states, for `simp` to rewrite with. -/
theorem decode_encode (i : Instr) : decode (encode i) = .ok i := Laws.FrameRoundTrip.all i

theorem nextDepartures_of_ofInstr {i : Instr} (hq : s.host = .ofInstr i :: rest) :
    nextDepartures h s = accessDepartures h i s := by
  simp only [nextDepartures, hq, HostItem.ofInstr, decode_encode]

theorem nextDepartures_of_read (hq : s.host = .read :: rest) : nextDepartures h s = readDepartures h s := by
  simp only [nextDepartures, hq]

theorem nextDepartures_of_wait (hq : s.host = .wait :: rest) : nextDepartures h s = waitDepartures h := by
  simp only [nextDepartures, hq]

theorem nextResets_of_ofInstr {i : Instr} (hq : s.host = .ofInstr i :: rest) : nextResets s = i.isReset := by
  simp only [nextResets, hq, HostItem.ofInstr, decode_encode]

theorem nextResets_of_read (hq : s.host = .read :: rest) : nextResets s = false := by
  simp only [nextResets, hq]

theorem nextResets_of_wait (hq : s.host = .wait :: rest) : nextResets s = false := by
  simp only [nextResets, hq]

/-- A reset edge begins the history anew. -/
theorem after_of_reset (hr : nextResets s = true) : h.after s t = .afterReset := if_pos hr

/-- Any other step only adds whether `rk_valid` has been 1. -/
theorem after_of_not_reset (hr : nextResets s = false) : h.after s t = ⟨h.booted, h.keyed || rkValid t⟩ := by
  simp [RunHistory.after, hr]

theorem accessDepartures_command (op : Op) (j : BitVec 4) (k b : Block) :
    accessDepartures h (op.command j k b) s = commandDepartures h s := by
  cases op <;> rfl

/-- A run is refused at its first item where that departs. -/
theorem hostRun_of_departs (hd : nextDepartures h s = ds) (hne : ds ≠ []) (hn : 1 ≤ n) :
    hostRun n h s = .refused ds := by
  obtain ⟨n, rfl⟩ := Nat.exists_eq_succ_of_ne_zero (Nat.one_le_iff_ne_zero.1 hn)
  cases ds with
  | nil => exact absurd rfl hne
  | cons d ds => simp only [hostRun, hd]

/-- The first item of a run that is not refused departs nowhere. -/
theorem nextDepartures_of_ran (hr : hostRun (n + 1) h s = .ran t) : nextDepartures h s = [] := by
  cases hd : nextDepartures h s with
  | nil => rfl
  | cons d ds =>
    rw [hostRun_of_departs hd (List.cons_ne_nil d ds) (Nat.le_add_left 1 n)] at hr
    cases hr

/-- A READ departs nowhere only after a reset edge and while `done` is 1. -/
theorem readDepartures_eq_nil_iff : readDepartures h s = [] ↔ h.booted = true ∧ done s = true := by
  unfold readDepartures
  cases h.booted with
  | false => simp
  | true =>
    cases done s with
    | true => simp
    | false => by_cases hp : s.phase = .idle <;> simp [hp]

/-- (b): before a reset edge every use of the core departs. -/
theorem nextDepartures_before_reset {x : HostItem} {i j : BitVec 4} {k b : Block} (hb : h.booted = false)
    (hx : x ∈ [HostItem.ofInstr (.encrypt j k b), .ofInstr (.decrypt j k b), .ofInstr (.rkRead i), .read, .wait])
    (hq : s.host = x :: rest) : nextDepartures h s = [.useBeforeReset] := by
  simp only [List.mem_cons, List.not_mem_nil, or_false] at hx
  rcases hx with rfl | rfl | rfl | rfl | rfl
  · simp [nextDepartures_of_ofInstr hq, accessDepartures, commandDepartures, hb]
  · simp [nextDepartures_of_ofInstr hq, accessDepartures, commandDepartures, hb]
  · simp [nextDepartures_of_ofInstr hq, accessDepartures, rkReadDepartures, hb]
  · simp [nextDepartures_of_read hq, readDepartures, hb]
  · simp [nextDepartures_of_wait hq, waitDepartures, hb]

/-- (a): a command while `busy` is 1. -/
theorem nextDepartures_command_busy {op : Op} {j : BitVec 4} {k b : Block} (hh : h.booted = true) (hb : busy s = true)
    (hq : s.host = .ofInstr (op.command j k b) :: rest) : nextDepartures h s = [.commandWhileBusy] := by
  simp [nextDepartures_of_ofInstr hq, accessDepartures_command, commandDepartures, hh, hb]

/-- (c): a READ while `done` is 0, and (e) in IDLE. -/
theorem nextDepartures_read_not_done (hh : h.booted = true) (hd : done s = false) (hq : s.host = .read :: rest) :
    nextDepartures h s =
      if s.phase = .idle then [.blockOutBeforeDone, .survivesReset] else [.blockOutBeforeDone] := by
  simp [nextDepartures_of_read hq, readDepartures, hh, hd]

/-- (d): a reserved index. -/
theorem nextDepartures_rkRead_reserved {i : BitVec 4} (hh : h.booted = true) (hi : 11 ≤ i.toNat)
    (hq : s.host = .ofInstr (.rkRead i) :: rest) : nextDepartures h s = [.rkOutInvalid] := by
  have hdef : rkIdxDefined i = false := decide_eq_false (by omega)
  simp [nextDepartures_of_ofInstr hq, accessDepartures, rkReadDepartures, hh, hdef]

/-- (d): a round key while `rk_valid` is 0, and (e) where no key step has reached it. -/
theorem nextDepartures_rkRead_not_valid {i : BitVec 4} (hh : h.booted = true) (hi : i.toNat ≤ 10)
    (hv : rkValid s = false) (hq : s.host = .ofInstr (.rkRead i) :: rest) :
    nextDepartures h s = if s.phase = .idle ∨ (h.keyed = false ∧ s.ctr.val ≤ i.toNat)
      then [.rkOutInvalid, .survivesReset] else [.rkOutInvalid] := by
  have hdef : rkIdxDefined i = true := decide_eq_true hi
  rw [nextDepartures_of_ofInstr hq]
  have hp : s.phase = .idle ∨ s.phase = .expand := by cases hp : s.phase <;> simp [rkValid, hp] at hv ⊢
  rcases hp with hp | hp
  · simp [accessDepartures, rkReadDepartures, roundKeySurvives, hh, hdef, hv, hp]
  · simp [accessDepartures, rkReadDepartures, roundKeySurvives, hh, hdef, hv, hp]

/-- U6: a reserved round number. -/
theorem nextDepartures_reserved_round {x : HostItem} {r : BitVec 4} {w : Word} {k : Block}
    (hr : r = 0 ∨ 11 ≤ r.toNat)
    (hx : x ∈ [HostItem.ofInstr (.rcon r), .ofInstr (.gFunc w r), .ofInstr (.keyStep k r)])
    (hq : s.host = x :: rest) : nextDepartures h s = [.reservedRound] := by
  have hdef : roundDefined r = false := by
    rcases hr with rfl | hr
    · rfl
    · have hgt : ¬ r.toNat ≤ 10 := by omega
      simp [roundDefined, hgt]
  simp only [List.mem_cons, List.not_mem_nil, or_false] at hx
  rcases hx with rfl | rfl | rfl <;>
    simp [nextDepartures_of_ofInstr hq, accessDepartures, Instr.wellFormed, hdef]

/-! ### Runs that keep the contract -/

/-- From history `h` and state `s` the first `n` steps keep the contract and lead to `h'` and `t`. -/
def KeepsContract (n : Nat) (h : RunHistory) (s : State) (h' : RunHistory) (t : State) : Prop :=
  ∀ m, hostRun (n + m) h s = hostRun m h' t

theorem KeepsContract.refl (h : RunHistory) (s : State) : KeepsContract 0 h s h s := fun m => by rw [Nat.zero_add]

theorem KeepsContract.trans (hs : KeepsContract n h s h' t) (ht : KeepsContract m h' t h'' u) :
    KeepsContract (n + m) h s h'' u := fun l => by rw [Nat.add_assoc, hs, ht]

/-- One step whose item departs nowhere. -/
theorem keepsContract_step (hd : nextDepartures h s = []) (hs : step s = .next t) :
    KeepsContract 1 h s (h.after s t) t := fun m => by
  rw [Nat.add_comm]
  simp only [hostRun, hd, hs]

theorem KeepsContract.hostRun_eq (hs : KeepsContract n h s h' t) : hostRun n h s = .ran t := hs 0

/-- A longer run is refused where the item after these steps departs. -/
theorem KeepsContract.refused (hs : KeepsContract n h s h' t) (hd : nextDepartures h' t = ds) (hne : ds ≠ [])
    (hm : n + 1 ≤ m) : hostRun m h s = .refused ds := by
  obtain ⟨l, rfl⟩ := Nat.exists_eq_add_of_le hm
  rw [Nat.add_assoc, hs]
  exact hostRun_of_departs hd hne (Nat.le_add_right 1 l)

end

/-! ### A command after a reset, under the contract -/

section
variable {op : Op} {k b : Block} {h : RunHistory} {s t : State} {rest : List HostItem} {n m : Nat}

/-- A command `n` edges after its acceptance, with the history of a run whose last reset edge came before the command;
the command has ended after 21 edges, and nothing more is said of it then than the sequencer's invariant. -/
structure CommandRun (op : Op) (k b : Block) (n : Nat) (h : RunHistory) (t : State) : Prop where
  booted : h.booted = true
  inv : SequencerInv t
  command : n ≤ 21 → CommandAt op k b n t
  keyed : n ≤ 9 → h.keyed = false

/-- RESET always keeps the contract. -/
theorem keepsContract_reset (h : RunHistory) (hq : s.host = .ofInstr (.reset false .encrypt 0) :: rest) :
    ∃ t, KeepsContract 1 h s .afterReset t ∧ t.host = rest ∧ t.phase = .idle ∧ SequencerInv t := by
  have hx := (step_of_ofInstr hq).trans (exec_reset false .encrypt 0)
  have hrun := keepsContract_step (h := h) (nextDepartures_of_ofInstr hq) hx
  rw [after_of_reset (nextResets_of_ofInstr hq)] at hrun
  exact ⟨_, hrun, by simp, rfl, sequencerInv_of_idle rfl rfl rfl⟩

/-- A command in IDLE right after a reset keeps the contract. -/
theorem keepsContract_command (hp : s.phase = .idle) (hs : SequencerInv s)
    (hq : s.host = .ofInstr (op.command 0 k b) :: rest) :
    ∃ h t, KeepsContract 1 .afterReset s h t ∧ t.host = rest ∧ CommandRun op k b 0 h t := by
  have hb : busy s = false := (busy_eq_false_iff s).2 (.inl hp)
  have hx := (step_of_ofInstr hq).trans (exec_command (s := { s with host := rest }) 0 hb)
  have hd : nextDepartures .afterReset s = [] := by
    simp [nextDepartures_of_ofInstr hq, accessDepartures_command, commandDepartures, hb, RunHistory.afterReset]
  have hr : nextResets s = false := by rw [nextResets_of_ofInstr hq]; cases op <;> rfl
  refine ⟨_, _, keepsContract_step hd hx, rfl, ?_⟩
  rw [after_of_not_reset hr]
  exact ⟨rfl, stepKeepsSequencerInv _ _ hs hx, fun _ => commandAt_accept op k b _, fun _ => rfl⟩

/-- A step that takes the command one edge on, and is no departure. -/
theorem CommandRun.keepsContract_step (hc : CommandRun op k b n h s) (hd : nextDepartures h s = [])
    (hr : nextResets s = false) (hx : step s = .next t) (ht : n ≤ 20 → CommandAt op k b (n + 1) t) :
    ∃ h', KeepsContract 1 h s h' t ∧ CommandRun op k b (n + 1) h' t := by
  refine ⟨_, Machine.keepsContract_step hd hx, ?_⟩
  rw [after_of_not_reset hr]
  refine ⟨hc.booted, stepKeepsSequencerInv _ _ hc.inv hx, fun hn => ht (by omega), fun hn => ?_⟩
  have hv : rkValid t = false := by rw [(ht (by omega)).rkValid_eq]; exact decide_eq_false (by omega)
  rw [hc.keyed (by omega), hv]
  rfl

/-- A NOP edge keeps the contract, while the command runs and after it. -/
theorem CommandRun.nop (hc : CommandRun op k b n h s) (hq : s.host = .ofInstr (.nop .encrypt 0) :: rest) :
    ∃ h' t, KeepsContract 1 h s h' t ∧ t.host = rest ∧ CommandRun op k b (n + 1) h' t := by
  obtain ⟨t, ht⟩ := noOperationStops (.nop .encrypt 0) { s with host := rest } hc.inv.ctr_ne_zero
  have hcommand (hn : n ≤ 20) : CommandAt op k b (n + 1) t := by
    have hcs : CommandAt op k b n { s with host := rest } := (hc.command (by omega)).of_sameRegisters (.refl s)
    obtain ⟨u, hu, hcu, -⟩ := hcs.exec_next hn (e := .nop .encrypt 0) rfl
    cases hu.symm.trans ht
    exact hcu
  obtain ⟨h', hrun, hc'⟩ := hc.keepsContract_step (nextDepartures_of_ofInstr hq) (nextResets_of_ofInstr hq)
    ((step_of_ofInstr hq).trans ht) hcommand
  exact ⟨h', t, hrun, exec_host ht, hc'⟩

/-- So do any number of them. -/
theorem CommandRun.nops (hc : CommandRun op k b n h s)
    (hq : s.host = List.replicate m (.ofInstr (.nop .encrypt 0)) ++ rest) :
    ∃ h' t, KeepsContract m h s h' t ∧ t.host = rest ∧ CommandRun op k b (n + m) h' t := by
  induction m generalizing n h s with
  | zero => exact ⟨h, s, .refl h s, hq, hc⟩
  | succ m ih =>
    obtain ⟨h1, u, hrun1, hqu, hc1⟩ := hc.nop hq
    obtain ⟨h2, t, hrun2, hqt, hc2⟩ := ih hc1 hqu
    rw [Nat.add_right_comm, Nat.add_assoc] at hc2
    exact ⟨h2, t, Nat.add_comm 1 m ▸ hrun1.trans hrun2, hqt, hc2⟩

/-- RESET, a command and NOP edges keep the contract. -/
theorem keepsContract_reset_command_nops (h : RunHistory)
    (hq : s.host = .ofInstr (.reset false .encrypt 0) :: .ofInstr (op.command 0 k b) ::
      (List.replicate m (.ofInstr (.nop .encrypt 0)) ++ rest)) :
    ∃ h' t, KeepsContract (m + 2) h s h' t ∧ t.host = rest ∧ CommandRun op k b m h' t := by
  obtain ⟨u, hu, hqu, hpu, hsu⟩ := keepsContract_reset h hq
  obtain ⟨hv, v, hrunv, hqv, hcv⟩ := keepsContract_command hpu hsu hqu
  obtain ⟨ht, t, hrunt, hqt, hct⟩ := hcv.nops hqv
  rw [Nat.zero_add] at hct
  exact ⟨ht, t, by rw [Nat.add_comm]; exact (hu.trans hrunv).trans hrunt, hqt, hct⟩

/-- A turn of WAIT keeps the contract. -/
theorem CommandRun.wait_turn (hc : CommandRun op k b n h s) (hn : n ≤ 20) (hq : s.host = .wait :: rest) :
    ∃ h' t, KeepsContract 1 h s h' t ∧ t.host = (if n = 20 then rest else .wait :: rest) ∧
      CommandRun op k b (n + 1) h' t := by
  have hd : nextDepartures h s = [] := by simp [nextDepartures_of_wait hq, waitDepartures, hc.booted]
  obtain ⟨t, hx, hct, hqt⟩ := (hc.command (by omega)).step_wait hn hq
  obtain ⟨h', hrun, hc'⟩ := hc.keepsContract_step hd (nextResets_of_wait hq) hx fun _ => hct
  exact ⟨h', t, hrun, hqt, hc'⟩

/-- WAIT ends with the edges that are left, and keeps the contract. -/
theorem CommandRun.wait (hc : CommandRun op k b n h s) (hn : n + m = 20) (hq : s.host = .wait :: rest) :
    ∃ h' t, KeepsContract (m + 1) h s h' t ∧ t.host = rest ∧ CommandRun op k b 21 h' t := by
  induction m generalizing n h s with
  | zero =>
    obtain rfl : n = 20 := hn
    exact hc.wait_turn le_rfl hq
  | succ m ih =>
    obtain ⟨h1, u, hrun1, hqu, hc1⟩ := hc.wait_turn (by omega) hq
    rw [if_neg (by omega)] at hqu
    obtain ⟨h2, t, hrun2, hqt, hc2⟩ := ih hc1 (by omega) hqu
    exact ⟨h2, t, Nat.add_comm 1 (m + 1) ▸ hrun1.trans hrun2, hqt, hc2⟩

/-- READ keeps the contract while `done` is 1. -/
theorem keepsContract_read (hh : h.booted = true) (hd : done s = true) (hq : s.host = .read :: rest) :
    KeepsContract 1 h s (h.after s { s with host := rest, sampled := .outputs (hostRead s) })
      { s with host := rest, sampled := .outputs (hostRead s) } :=
  keepsContract_step (by simp [nextDepartures_of_read hq, readDepartures, hh, hd]) (step_of_read hq)

/-- RKREAD of a round key keeps the contract while `rk_valid` is 1. -/
theorem keepsContract_rkRead {i : BitVec 4} (hh : h.booted = true) (hv : rkValid s = true) (hi : i.toNat ≤ 10)
    (hq : s.host = .ofInstr (.rkRead i) :: rest) :
    ∃ h' t, KeepsContract 1 h s h' t ∧ t.host = rest ∧ t.sampled = .block (rkPort s i) := by
  have hdef : rkIdxDefined i = true := decide_eq_true hi
  have hd : nextDepartures h s = [] := by
    simp [nextDepartures_of_ofInstr hq, accessDepartures, rkReadDepartures, hh, hdef, hv]
  have hx := (step_of_ofInstr hq).trans (exec_rkRead _ i)
  exact ⟨_, _, keepsContract_step hd hx, rfl, congrArg Sample.block (rkReadSample_of_rkValid hv i)⟩

/-- RESET, a command, WAIT and READ keep the contract and sample the result. -/
theorem keepsContract_reset_command_wait_read (h : RunHistory)
    (hq : s.host = .ofInstr (.reset false .encrypt 0) :: .ofInstr (op.command 0 k b) :: .wait :: .read :: rest) :
    ∃ h' t, KeepsContract 24 h s h' t ∧ t.host = rest ∧ h'.booted = true ∧ Finished op k b t ∧
      t.sampled = .outputs ⟨op.result k b, false, true, true⟩ := by
  obtain ⟨h1, u, hu, hqu, hcu⟩ := keepsContract_reset_command_nops (m := 0) h hq
  obtain ⟨h2, v, hv, hqv, hcv⟩ := hcu.wait (m := 20) rfl hqu
  have hf : Finished op k b v := (hcv.command le_rfl).finished
  have hr := keepsContract_read hcv.booted ((done_eq_true_iff v).2 hf.phase) hqv
  refine ⟨_, _, (hu.trans hv).trans hr, rfl, ?_, hf.of_sameRegisters (.refl v), congrArg Sample.outputs hf.hostRead_eq⟩
  rw [after_of_not_reset (nextResets_of_read hqv)]
  exact hcv.booted

/-- A READ that is not refused samples `state_reg`, with `done` 1. -/
theorem read_of_hostRun (hq : s.host = .read :: rest) (hr : hostRun 1 h s = .ran t) :
    done s = true ∧ t.sampled = .outputs ⟨s.stateReg, false, true, true⟩ := by
  have hnil : readDepartures h s = [] := (nextDepartures_of_read hq).symm.trans (nextDepartures_of_ran hr)
  obtain ⟨-, hd⟩ := readDepartures_eq_nil_iff.1 hnil
  have hp := (done_eq_true_iff s).1 hd
  cases (run_of_hostRun hr).symm.trans (run_succ (step_of_read hq))
  refine ⟨hd, ?_⟩
  simp [hostRead, sampleBlockOut, blockOut, busy, done, rkValid, hp]

/-- So a program of these lines runs to the sample of its result. -/
theorem hostRun_command_read (op : Op) (k b : Block)
    (hq : s.host = [.ofInstr (.reset false .encrypt 0), .ofInstr (op.command 0 k b), .wait, .read]) :
    ∃ t, hostRun 24 .powerOn s = .ran t ∧ t.host = [] ∧ t.sampled = .outputs ⟨op.result k b, false, true, true⟩ := by
  obtain ⟨h', t, hrun, hqt, -, -, hst⟩ := keepsContract_reset_command_wait_read .powerOn hq
  exact ⟨t, hrun.hostRun_eq, hqt, hst⟩

/-- With RKREAD after them it samples any round key of the key. -/
theorem hostRun_command_rkRead (op : Op) (k b : Block) (i : RoundIndex)
    (hq : s.host = [.ofInstr (.reset false .encrypt 0), .ofInstr (op.command 0 k b), .wait, .read,
      .ofInstr (.rkRead (BitVec.ofNat 4 i.val))]) :
    ∃ t, hostRun 25 .powerOn s = .ran t ∧ t.host = [] ∧ t.sampled = .block (roundKey k i.val) := by
  obtain ⟨h1, u, hu, hqu, hbu, hfu, -⟩ := keepsContract_reset_command_wait_read .powerOn hq
  have hi : (BitVec.ofNat 4 i.val).toNat = i.val := Nat.mod_eq_of_lt (by omega)
  have hv : rkValid u = true := (rkValid_eq_true_iff u).2 (.inr hfu.phase)
  obtain ⟨h2, t, ht, hqt, hst⟩ := keepsContract_rkRead hbu hv (by omega) hqu
  have hport : rkPort u (BitVec.ofNat 4 i.val) = roundKey k i.val := by
    rw [rkPort_of_defined u (by omega), hfu.rk, keyExpand_get]
    exact congrArg (roundKey k) hi
  exact ⟨t, (hu.trans ht).hostRun_eq, hqt, hst.trans (congrArg Sample.block hport)⟩

end

/-- Settles O50: both programs keep the contract, and a READ that keeps it samples the result. -/
theorem contractAdmitsPrograms : Obligations.ContractAdmitsPrograms := by
  refine ⟨fun s k b i hq p hp => ?_, fun h s t rest => read_of_hostRun⟩
  rcases List.mem_pair.1 hp with rfl | rfl
  · exact ⟨hostRun_command_read .encrypt k b (by simp [hq, Op.command]),
      hostRun_command_rkRead .encrypt k b i (by simp [hq, Op.command])⟩
  · exact ⟨hostRun_command_read .decrypt k b (by simp [hq, Op.command]),
      hostRun_command_rkRead .decrypt k b i (by simp [hq, Op.command])⟩

/-! ### Programs that depart -/

section
variable {op : Op} {k b k' b' : Block} {h : RunHistory} {s : State} {rest : List HostItem} {i : BitVec 4} {n m : Nat}

/-- The host line of a command, by its operation. -/
theorem exists_op_of_mem_lines {l : HostLine} (hl : l ∈ [HostLine.enc k b, .dec k b]) : ∃ op : Op, l = op.line k b := by
  rcases List.mem_pair.1 hl with rfl | rfl
  · exact ⟨.encrypt, rfl⟩
  · exact ⟨.decrypt, rfl⟩

/-- The item of a command, by its operation. -/
theorem exists_op_of_mem_items {j : BitVec 4} {x : HostItem}
    (hx : x ∈ [HostItem.ofInstr (.encrypt j k b), .ofInstr (.decrypt j k b)]) :
    ∃ op : Op, x = .ofInstr (op.command j k b) := by
  rcases List.mem_pair.1 hx with rfl | rfl
  · exact ⟨.encrypt, rfl⟩
  · exact ⟨.decrypt, rfl⟩

/-- The one item of a line that uses the core, waiting alone. -/
theorem exists_item_of_use {l : HostLine} (hq : s.host = [])
    (hl : l ∈ [HostLine.enc k b, .dec k b, .rkRead i, .read, .wait]) :
    ∃ x ∈ [HostItem.ofInstr (.encrypt 0 k b), .ofInstr (.decrypt 0 k b), .ofInstr (.rkRead i), .read, .wait],
      (s.loadProgram [l]).host = [x] := by
  simp only [List.mem_cons, List.not_mem_nil, or_false] at hl
  rcases hl with rfl | rfl | rfl | rfl | rfl <;> simp [hq]

/-- Right after RESET a READ departs in (c) and (e). -/
theorem hostRun_reset_read_refused (hq : s.host = [.ofInstr (.reset false .encrypt 0), .read]) (hn : 2 ≤ n) :
    hostRun n h s = .refused [.blockOutBeforeDone, .survivesReset] := by
  obtain ⟨t, hrun, hqt, hpt, -⟩ := keepsContract_reset h hq
  have hd := nextDepartures_read_not_done (h := .afterReset) rfl (by simp [done, hpt]) hqt
  rw [if_pos hpt] at hd
  exact hrun.refused hd (List.cons_ne_nil _ _) hn

/-- Right after RESET an RKREAD departs in (d), and in (e) at the index of a round key. -/
theorem hostRun_reset_rkRead_refused (hq : s.host = [.ofInstr (.reset false .encrypt 0), .ofInstr (.rkRead i)])
    (hn : 2 ≤ n) :
    hostRun n h s = .refused (if i.toNat ≤ 10 then [.rkOutInvalid, .survivesReset] else [.rkOutInvalid]) := by
  obtain ⟨t, hrun, hqt, hpt, -⟩ := keepsContract_reset h hq
  by_cases hi : i.toNat ≤ 10
  · have hd := nextDepartures_rkRead_not_valid (h := .afterReset) rfl hi (by simp [rkValid, hpt]) hqt
    rw [if_pos (.inl hpt)] at hd
    rw [if_pos hi]
    exact hrun.refused hd (List.cons_ne_nil _ _) hn
  · rw [if_neg hi]
    exact hrun.refused (nextDepartures_rkRead_reserved rfl (by omega) hqt) (List.cons_ne_nil _ _) hn

/-- A program of RESET, a command, NOP edges and one line more keeps the contract up to that line. -/
theorem keepsContract_load {l : HostLine} {x : HostItem} (hq : s.host = []) (hx : l.items = [x]) :
    ∃ h' t, KeepsContract (m + 2) h (s.loadProgram [.reset, op.line k b, .nop m, l]) h' t ∧ t.host = [x] ∧
      CommandRun op k b m h' t :=
  keepsContract_reset_command_nops h (by simp [hq, hx])

/-- While a command runs another departs in (a). -/
theorem CommandRun.nextDepartures_command {op' : Op} (hc : CommandRun op k b m h s) (hm : m ≤ 20)
    (hq : s.host = .ofInstr (op'.command 0 k' b') :: rest) : nextDepartures h s = [.commandWhileBusy] := by
  have hb : busy s = true := by rw [(hc.command (by omega)).busy_eq]; exact decide_eq_true (by omega)
  exact nextDepartures_command_busy hc.booted hb hq

/-- While a command runs READ departs in (c), and not in (e). -/
theorem CommandRun.nextDepartures_read (hc : CommandRun op k b m h s) (hm : m ≤ 20) (hq : s.host = .read :: rest) :
    nextDepartures h s = [.blockOutBeforeDone] := by
  have hcmd := hc.command (by omega)
  have hb : busy s = true := by rw [hcmd.busy_eq]; exact decide_eq_true (by omega)
  have hd : done s = false := by rw [hcmd.done_eq]; exact decide_eq_false (by omega)
  have hidle : s.phase ≠ .idle := fun hp => by simp [busy, hp] at hb
  rw [nextDepartures_read_not_done hc.booted hd hq, if_neg hidle]

/-- In EXPAND RKREAD departs in (d), and in (e) above the entry written last. -/
theorem CommandRun.nextDepartures_rkRead (hc : CommandRun op k b m h s) (hi : i.toNat ≤ 10) (hm : m ≤ 9)
    (hq : s.host = .ofInstr (.rkRead i) :: rest) :
    nextDepartures h s = if m < i.toNat then [.rkOutInvalid, .survivesReset] else [.rkOutInvalid] := by
  have hcmd := hc.command (by omega)
  have hv : rkValid s = false := by rw [hcmd.rkValid_eq]; exact decide_eq_false (by omega)
  obtain ⟨hexpand, -⟩ := hcmd.schedule
  obtain ⟨hp, hctr⟩ := hexpand hm
  rw [nextDepartures_rkRead_not_valid hc.booted hi hv hq]
  simp [hp, hc.keyed hm, hctr]

end

/-- Settles O49: the departures of each item, then those of the programs where they stand. -/
theorem contractRefusesDepartures : Obligations.ContractRefusesDepartures := by
  refine ⟨fun h s rest i j r k b w n hn => ⟨fun hh x hx hq => ?_, fun hh hb x hx hq => ?_, fun hh hd hq => ?_,
    fun hh hq => ⟨fun hi => ?_, fun hi hv => ?_⟩, fun hr x hx hq => ?_⟩,
    fun s k b k' b' i m n hq => ⟨fun hn l hl => ?_, fun hn => ⟨?_, ?_⟩, fun c hc => ?_⟩⟩
  · exact hostRun_of_departs (nextDepartures_before_reset hh hx hq) (List.cons_ne_nil _ _) hn
  · obtain ⟨op, rfl⟩ := exists_op_of_mem_items hx
    exact hostRun_of_departs (nextDepartures_command_busy hh hb hq) (List.cons_ne_nil _ _) hn
  · exact hostRun_of_departs (nextDepartures_read_not_done hh hd hq) (by split <;> simp) hn
  · exact hostRun_of_departs (nextDepartures_rkRead_reserved hh hi hq) (List.cons_ne_nil _ _) hn
  · exact hostRun_of_departs (nextDepartures_rkRead_not_valid hh hi hv hq) (by split <;> simp) hn
  · exact hostRun_of_departs (nextDepartures_reserved_round hr hx hq) (List.cons_ne_nil _ _) hn
  · obtain ⟨x, hx, hqx⟩ := exists_item_of_use hq hl
    exact hostRun_of_departs (nextDepartures_before_reset rfl hx hqx) (List.cons_ne_nil _ _) hn
  · exact hostRun_reset_read_refused (by simp [hq]) hn
  · exact hostRun_reset_rkRead_refused (by simp [hq]) hn
  · obtain ⟨op, rfl⟩ := exists_op_of_mem_lines hc
    refine ⟨fun hm hn => ⟨fun l hl => ?_, ?_⟩, fun hi hm hn => ?_, fun hi hn => ?_⟩
    · obtain ⟨op', rfl⟩ := exists_op_of_mem_lines hl
      obtain ⟨h', t, hrun, hqt, hct⟩ := keepsContract_load hq (op'.items_line k' b')
      exact hrun.refused (hct.nextDepartures_command hm hqt) (List.cons_ne_nil _ _) hn
    · obtain ⟨h', t, hrun, hqt, hct⟩ := keepsContract_load hq State.items_read
      exact hrun.refused (hct.nextDepartures_read hm hqt) (List.cons_ne_nil _ _) hn
    · obtain ⟨h', t, hrun, hqt, hct⟩ := keepsContract_load hq (State.items_rkRead i)
      exact hrun.refused (hct.nextDepartures_rkRead hi hm hqt) (by split <;> simp) hn
    · obtain ⟨h', t, hrun, hqt, hct⟩ := keepsContract_load hq (State.items_rkRead i)
      exact hrun.refused (nextDepartures_rkRead_reserved hct.booted hi hqt) (List.cons_ne_nil _ _) hn

end Sys2Proof.Machine
end
